-- ==== Sys2Proof/Word.lean ====
section
/-!
DEFINITION. The fixed-width words of the FDTC block (00_scope.md rule R9, 30_encoding.md rules R43, R44,
R50, R52). Only names for widths stand here; every field split is in Decode.lean or under Machine/.
-/

namespace Sys2Proof

/-- A byte, 8 bits (00_scope.md rule R9). -/
abbrev Byte := BitVec 8

/-- A command word CW, 40 bits (30_encoding.md rule R44). -/
abbrev CommandWord := BitVec 40

/-- A response word RW, 40 bits (30_encoding.md rule R50). -/
abbrev ResponseWord := BitVec 40

/-- A sample record SR as it leaves the block, 21 bits (30_encoding.md rule R52). -/
abbrev SampleWord := BitVec 21

end Sys2Proof
end

