-- ==== Sys2Proof/Config.lean ====
section
/-!
DEFINITION. What is fixed for a run and is not state: the four modes (00_scope.md rule R7) and the one
parameter the spec leaves open, TIE_UP (00_scope.md rule R8, 41_tick.md rules R74 and R75). The numeric
tables of the spec (MULT, the unit sizes, TICK_MAX, NIBBLE_MASK) are in Machine/Params.lean.
-/

namespace Sys2Proof

/-- The four modes of 00_scope.md rule R7. Their 2-bit codes are in Machine/Operands.lean. -/
inductive Mode where
  /-- 1L, code 0b00: one channel, LowRes8. -/
  | oneLow
  /-- 1H, code 0b01: one channel, HighRes12Macro. -/
  | oneHigh
  /-- 2L, code 0b10: two channels, LowRes8. -/
  | twoLow
  /-- 2H, code 0b11: two channels, HighRes12Macro. -/
  | twoHigh
deriving DecidableEq, Repr

/-- TIE_UP, the open parameter (92_eei_decisions.md D8): whether an exact half rounds up at the divisor `N`.
DESIGN CHOICE (notes/assumptions/1.md), safe: it has no body, so every claim proved holds for both values at
each of the eight ties of 41_tick.md rule R75. -/
opaque Config.tieUp : Nat → Bool

end Sys2Proof
end

