-- ==== Sys2Proof/Syntax.lean ====
section
/-!
DEFINITION. The instructions: one constructor for each row of spec/opcode_table.json (30_encoding.md rules
R45, R47, R53 to R56). The first eight rows are command words; the last four are frame units, which the
block takes from the chunk inside a DECODE. Fields that an operation ignores (rule R46) are no operands.
-/

namespace Sys2Proof

/-- The rows of the opcode table. -/
inductive Instr where
  /-- NOP, op 0x0 (40_register_ops.md rule R65). -/
  | nop
  /-- WR, op 0x1: register number and value (40_register_ops.md rule R66). -/
  | wr (addr : BitVec 4) (data : BitVec 32)
  /-- RD, op 0x2: register number (40_register_ops.md rule R67). -/
  | rd (addr : BitVec 4)
  /-- TICK, op 0x3 (41_tick.md rule R69). -/
  | tick
  /-- DECODE, op 0x4: LEN, the chunk length in bytes (42_decode.md rule R82). -/
  | decode (len : BitVec 16)
  /-- RST, op 0x5 (40_register_ops.md rule R68). -/
  | rst
  /-- RESERVED_6_7: a command word whose op is `op`, 0x6 or 0x7 (30_encoding.md rule R47). -/
  | reserved67 (op : BitVec 4)
  /-- RESERVED_8_F: a command word whose op is `op`, 0x8 to 0xF (30_encoding.md rule R47). -/
  | reserved8F (op : BitVec 4)
  /-- UNIT_1L, format B1: the sample byte (30_encoding.md rule R53). -/
  | unit1L (sample : Byte)
  /-- UNIT_1H, format W2: the 12 sample bits and the marker nibble (30_encoding.md rule R54). -/
  | unit1H (sample : BitVec 12) (marker : BitVec 4)
  /-- UNIT_2L, format Q4: token, count, channel-A and channel-B bytes (30_encoding.md rule R55). -/
  | unit2L (token count chanA chanB : Byte)
  /-- UNIT_2H, format W2: the 12 sample bits and the marker nibble (30_encoding.md rule R56). -/
  | unit2H (sample : BitVec 12) (marker : BitVec 4)
deriving DecidableEq, Repr

end Sys2Proof
end

