-- ==== Sys2Proof/WellFormed.lean ====
section
/-!
DEFINITION. Which instructions an encoding can express. Operand widths are in the types; what remains is
that a reserved row carries one of its own operation codes (30_encoding.md rule R47).
-/

namespace Sys2Proof

/-- Every instruction but a reserved one is well formed for every operand: no register number, length or
byte is illegal as an ENCODING (30_encoding.md rules R46 to R49). -/
def Instr.wellFormed : Instr → Bool
  | .nop => true
  | .wr _ _ => true
  | .rd _ => true
  | .tick => true
  | .decode _ => true
  | .rst => true
  | .reserved67 op => decide (6 ≤ op.toNat ∧ op.toNat ≤ 7)
  | .reserved8F op => decide (8 ≤ op.toNat)
  | .unit1L _ => true
  | .unit1H _ _ => true
  | .unit2L _ _ _ _ => true
  | .unit2H _ _ => true

end Sys2Proof
end

