-- ==== Sys2Proof/Decode.lean ====
section
/-!
DEFINITION. From bits to instructions and back. A command word is one 40-bit value and every such value is an
instruction (30_encoding.md rule R46). A frame unit is a group of chunk bytes read under a mode; nothing in
the bytes says which mode (30_encoding.md rule R61), so the mode stands beside them.
-/

namespace Sys2Proof

/-! ## The fields of a command word (30_encoding.md rule R44) -/

/-- `op`, CW[39:36]. -/
def opField (cw : CommandWord) : BitVec 4 := cw.extractLsb' 36 4

/-- `addr`, CW[35:32]. -/
def addrField (cw : CommandWord) : BitVec 4 := cw.extractLsb' 32 4

/-- `data`, CW[31:0]. -/
def dataField (cw : CommandWord) : BitVec 32 := cw.extractLsb' 0 32

/-- LEN, `data[15:0]` of a DECODE. -/
def lenField (cw : CommandWord) : BitVec 16 := cw.extractLsb' 0 16

/-- The operation of a command word (30_encoding.md rules R45 and R47): total on all 2^40 values. -/
def decodeCommand (cw : CommandWord) : Instr :=
  match (opField cw).toNat with
  | 0 => .nop
  | 1 => .wr (addrField cw) (dataField cw)
  | 2 => .rd (addrField cw)
  | 3 => .tick
  | 4 => .decode (lenField cw)
  | 5 => .rst
  | 6 => .reserved67 (opField cw)
  | 7 => .reserved67 (opField cw)
  | _ => .reserved8F (opField cw)

/-! ## Frame units (30_encoding.md rules R53 to R56) -/

/-- One frame unit, its fields named as in the opcode table. -/
inductive FrameUnit where
  | byte1L (sample : Byte)
  | word1H (sample : BitVec 12) (marker : BitVec 4)
  | quad2L (token count chanA chanB : Byte)
  | word2H (sample : BitVec 12) (marker : BitVec 4)
deriving DecidableEq, Repr

/-- The opcode-table row a frame unit is. -/
def FrameUnit.toInstr : FrameUnit → Instr
  | .byte1L v => .unit1L v
  | .word1H v m => .unit1H v m
  | .quad2L t c a b => .unit2L t c a b
  | .word2H v m => .unit2H v m

/-- The word whose less significant byte, at the even offset, is `lo` (20_memory.md rules R32 and R33). -/
def leWord (lo hi : Byte) : BitVec 16 := hi ++ lo

/-- `s12`, w[15:4] (30_encoding.md rule R54). -/
def sampleField (w : BitVec 16) : BitVec 12 := w.extractLsb' 4 12

/-- The marker nibble, w[3:0] (30_encoding.md rule R54). -/
def markerField (w : BitVec 16) : BitVec 4 := w.extractLsb' 0 4

/-- Why bytes do not make one frame unit. -/
inductive DecodeReject where
  /-- Fewer bytes than the mode's unit: the block never splits or pads a unit (20_memory.md rule R35). -/
  | partialUnit (mode : Mode)
  /-- More bytes than the mode's unit. -/
  | trailingBytes (mode : Mode)
deriving DecidableEq, Repr

/-- The one frame unit the bytes make under a mode, bytes in arrival order. -/
def decodeUnit : Mode → List Byte → Except DecodeReject FrameUnit
  | .oneLow, [v] => .ok (.byte1L v)
  | .oneLow, [] => .error (.partialUnit .oneLow)
  | .oneLow, _ :: _ :: _ => .error (.trailingBytes .oneLow)
  | .oneHigh, [lo, hi] => .ok (.word1H (sampleField (leWord lo hi)) (markerField (leWord lo hi)))
  | .oneHigh, [] => .error (.partialUnit .oneHigh)
  | .oneHigh, [_] => .error (.partialUnit .oneHigh)
  | .oneHigh, _ :: _ :: _ :: _ => .error (.trailingBytes .oneHigh)
  | .twoLow, [t, c, a, b] => .ok (.quad2L t c a b)
  | .twoLow, [] => .error (.partialUnit .twoLow)
  | .twoLow, [_] => .error (.partialUnit .twoLow)
  | .twoLow, [_, _] => .error (.partialUnit .twoLow)
  | .twoLow, [_, _, _] => .error (.partialUnit .twoLow)
  | .twoLow, _ :: _ :: _ :: _ :: _ :: _ => .error (.trailingBytes .twoLow)
  | .twoHigh, [lo, hi] => .ok (.word2H (sampleField (leWord lo hi)) (markerField (leWord lo hi)))
  | .twoHigh, [] => .error (.partialUnit .twoHigh)
  | .twoHigh, [_] => .error (.partialUnit .twoHigh)
  | .twoHigh, _ :: _ :: _ :: _ => .error (.trailingBytes .twoHigh)

/-! ## Both together -/

/-- What stands before the decoder: a command word on the command port, or the bytes of one unit under a mode. -/
inductive Encoding where
  | command (cw : CommandWord)
  | unit (mode : Mode) (bytes : List Byte)
deriving DecidableEq, Repr

/-- The decoder: a command word is always accepted, bytes are rejected by name unless they are one unit. -/
def decode : Encoding → Except DecodeReject Instr
  | .command cw => .ok (decodeCommand cw)
  | .unit mode bytes => (decodeUnit mode bytes).map FrameUnit.toInstr

/-! ## The encoder -/

/-- A command word from its three fields (30_encoding.md rule R44). -/
def commandWord (op addr : BitVec 4) (data : BitVec 32) : CommandWord := op ++ addr ++ data

/-- The low byte of a W2 unit, `{s12[3:0], m}` (30_encoding.md rule R54). -/
def wordLowByte (v : BitVec 12) (m : BitVec 4) : Byte := v.extractLsb' 0 4 ++ m

/-- The high byte of a W2 unit, `s12[11:4]` (30_encoding.md rule R54). -/
def wordHighByte (v : BitVec 12) : Byte := v.extractLsb' 4 8

/-- The encoding of an instruction, zeros in the fields it ignores (30_encoding.md rule R46, as the
assembler of rule R62 writes them). -/
def encode : Instr → Encoding
  | .nop => .command (commandWord 0x0 0 0)
  | .wr addr data => .command (commandWord 0x1 addr data)
  | .rd addr => .command (commandWord 0x2 addr 0)
  | .tick => .command (commandWord 0x3 0 0)
  | .decode len => .command (commandWord 0x4 0 (len.setWidth 32))
  | .rst => .command (commandWord 0x5 0 0)
  | .reserved67 op => .command (commandWord op 0 0)
  | .reserved8F op => .command (commandWord op 0 0)
  | .unit1L v => .unit .oneLow [v]
  | .unit1H v m => .unit .oneHigh [wordLowByte v m, wordHighByte v]
  | .unit2L t c a b => .unit .twoLow [t, c, a, b]
  | .unit2H v m => .unit .twoHigh [wordLowByte v m, wordHighByte v]

/-! ## The opcode table's numbering -/

/-- The low `n` bytes of `w`, the least significant first. -/
def lowBytes : Nat → Nat → List Byte
  | 0, _ => []
  | n + 1, w => BitVec.ofNat 8 w :: lowBytes n (w / 256)

/-- What the bits of an opcode-table row stand for on the hardware: 40 bits are a command word, 8 and 32 bits
the bytes of a unit of variant 1L and 2L, the first byte in the lowest bits (notes/assumptions/7.md, DESIGN
CHOICE). 16 bits are a W2 unit, which the rows UNIT_1H and UNIT_2H share bit for bit; `wordMode` says under
which of the two modes they are read. -/
def tableEncoding (wordMode : Mode) (nbits w : Nat) : Option Encoding :=
  match nbits with
  | 8 => some (.unit .oneLow (lowBytes 1 w))
  | 16 => some (.unit wordMode (lowBytes 2 w))
  | 32 => some (.unit .twoLow (lowBytes 4 w))
  | 40 => some (.command (BitVec.ofNat 40 w))
  | _ => none

/-- The instruction the decoder reads from a row's bits. A 16-bit row is read as UNIT_1H: the word alone does
not say which of UNIT_1H and UNIT_2H it is (30_encoding.md rule R61; notes/assumptions/6.md, DESIGN CHOICE). -/
def decodeTableWord (nbits w : Nat) : Option Instr :=
  (tableEncoding .oneHigh nbits w).bind fun e =>
    match decode e with
    | .ok i => some i
    | .error _ => none

end Sys2Proof
end

