-- ==== Sys2Proof/Machine/State.lean ====
section
/-!
DEFINITION. The machine's state as plain data, and the reasons a step can stop. The first six fields are the
whole architectural state of 10_state.md rule R13. The next four hold what 10_state.md rules R16 and R25 give
to the inside of one DECODE; they are empty whenever no DECODE runs. The last two are the model's own record of
the block's ports (notes/assumptions/2.md), since a step of the host's interface has no other input or output.
-/

namespace Sys2Proof.Machine

/-- Memory: bytes by address, addresses strictly rising (Machine/Memory.lean). The block's one memory is the
chunk buffer CB, whose addresses are byte offsets from the chunk's first byte (20_memory.md rule R30). An
address that is not listed holds no byte. -/
abbrev Memory := List Host.Cell

/-- A sample record (30_encoding.md rule R52). -/
structure Record where
  lane : BitVec 1
  marker : BitVec 4
  val : BitVec 16
deriving DecidableEq, Repr

/-- One word leaving the block: a sample record or a response word (30_encoding.md rules R50 and R52). -/
inductive Output where
  | sample (sr : SampleWord)
  | response (rw : ResponseWord)
deriving DecidableEq, Repr

/-- What the host may do while the block is idle (70_reset_and_hazards.md rules R115 and R119;
notes/assumptions/14.md, DESIGN CHOICE). -/
inductive HostMove where
  /-- The reset input. -/
  | reset
  /-- A command word, with the chunk bytes that accompany it in arrival order (30_encoding.md rule R51). -/
  | command (cw : CommandWord) (chunk : List Byte)
deriving DecidableEq, Repr

/-- The state. -/
structure State where
  /-- CFG.MODE (10_state.md rule R19). -/
  mode : Mode
  /-- CFG.STRICT (10_state.md rule R20). -/
  strict : Bool
  /-- TOKEN (10_state.md rule R21). -/
  token : Byte
  /-- RATE (10_state.md rule R22). -/
  rate : BitVec 32
  /-- STATUS.LOCK (10_state.md rule R17). -/
  lock : Bool
  /-- MFCNT (10_state.md rule R23). -/
  mfcnt : BitVec 32
  /-- CB, the chunk buffer (10_state.md rule R25). -/
  cb : Memory
  /-- LEN of the DECODE in progress (10_state.md rule R25). -/
  len : BitVec 16
  /-- `pos`, written `pc` in pseudocode, 17 bits (10_state.md rule R16). -/
  pos : BitVec 17
  /-- `out`, the records the DECODE in progress has emitted, first record first (42_decode.md rule R84). -/
  out : List Record
  /-- The host's moves the block has not taken yet, first move first. -/
  pending : List HostMove
  /-- Everything the block has delivered, first delivery first. -/
  delivered : List Output
deriving DecidableEq, Repr

/-- Reasons for a fault. -/
inductive Fault where
  /-- Raised by the loop inside DECODE when the bytes of the next unit do not all exist in CB. The spec says
  that such an access cannot happen (20_memory.md rule R35), and no step from a reachable state answers it.
  Safe: the machine stops (notes/assumptions/4.md). -/
  | chunkOverrun (offset : Nat)
deriving DecidableEq, Repr

/-- Reasons for a refusal. -/
inductive Refusal where
  /-- Raised by an arm of exec that has no meaning; no arm of this model does. Safe: the machine stops. -/
  | notModelled (mnemonic : String)
  /-- Raised by DECODE when the host has not presented exactly LEN chunk bytes. The spec makes presenting them
  a duty of the host, defines no behaviour where it is broken and asks a model to refuse
  (93_implementation_defined.md B2, 70_reset_and_hazards.md rule R119). Safe: the machine stops
  (notes/assumptions/3.md). -/
  | chunkNotPresented
deriving DecidableEq, Repr

/-- The state after reset: the six fields of 10_state.md rule R13 at the values of rule R29, no DECODE in
progress, nothing on the ports (notes/assumptions/5.md for the fields rule R29 gives no value). -/
def State.reset : State where
  mode := .oneLow
  strict := false
  token := 0
  rate := 0
  lock := false
  mfcnt := 0
  cb := []
  len := 0
  pos := 0
  out := []
  pending := []
  delivered := []

/-- What a step, or a meaning, answers. -/
abbrev Result := Host.Outcome State Fault Refusal

end Sys2Proof.Machine
end

