-- ==== Sys2Proof/Machine/Flags.lean ====
section
/-!
DEFINITION. The block's one flag and its one counter. There are no condition codes (10_state.md rule R18):
LOCK is the only flag (rule R17) and MFCNT the only lasting trace of an error (rule R23).
-/

namespace Sys2Proof.Machine

/-- `LOCK <- 1` (42_decode.md rule R83). -/
def setLock (s : State) : State := { s with lock := true }

/-- `sat32(v)` (00_scope.md rule R11). -/
def sat32 (v : Nat) : Nat := min v 4294967295

/-- `MFCNT <- sat32(MFCNT + 1)` (10_state.md rule R23). -/
def countMalformed (s : State) : State :=
  { s with mfcnt := BitVec.ofNat 32 (sat32 (s.mfcnt.toNat + 1)) }

end Sys2Proof.Machine
end

