-- ==== Sys2Proof/Machine/Memory.lean ====
section
/-!
DEFINITION. The chunk buffer's operations (20_memory.md). The host fills CB as it issues a DECODE (rule R31);
the block only reads it; after the DECODE it is gone (10_state.md rule R25). There is no write operation.
-/

namespace Sys2Proof.Machine

/-- The canonical form: addresses strictly rising. An unlisted address reads as no byte, so no entry can equal
what it would read as. -/
def Memory.wf : Memory → Bool
  | [] => true
  | [_] => true
  | (a, _) :: (b, y) :: m => decide (a < b) && Memory.wf ((b, y) :: m)

/-- `MemRead(addr, 1)` (20_memory.md rule R33), or none where the buffer holds no byte. -/
def Memory.read : Memory → Nat → Option Byte
  | [], _ => none
  | (k, b) :: m, a => if k = a then some b else Memory.read m a

/-- `MemRead(addr, 2)`, little-endian (20_memory.md rules R32 and R33), or none where one of its two bytes does not
exist. -/
def Memory.readWord (m : Memory) (a : Nat) : Option (BitVec 16) :=
  match Memory.read m a, Memory.read m (a + 1) with
  | some lo, some hi => some (leWord lo hi)
  | _, _ => none

/-- A buffer holding the bytes at offsets `a`, `a + 1`, .... -/
def Memory.fillFrom : Nat → List Byte → Memory
  | _, [] => []
  | a, b :: bs => (a, b) :: Memory.fillFrom (a + 1) bs

/-- CB as the host fills it: byte 0 is the first byte that arrived (20_memory.md rules R30 and R31). -/
def Memory.ofBytes (bytes : List Byte) : Memory := Memory.fillFrom 0 bytes

/-- Whether the buffer holds exactly the bytes `CB[0]` to `CB[n - 1]` (30_encoding.md rule R51). -/
def Memory.holdsExactly (m : Memory) (n : Nat) : Bool := m.map Prod.fst == List.range n

end Sys2Proof.Machine
end

