-- ==== Sys2Proof/Machine/Params.lean ====
section
/-!
DEFINITION. The spec's constants and tables (00_scope.md rules R6 to R8). They are fixed for every run; they
stand here, and not in Config.lean, because the source's literals are unaudited (91_not_in_source.md N9) and a
repair may have to change them.
-/

namespace Sys2Proof.Machine

/-- TICKS_PER_SECOND, the exact reciprocal of 25 ns (00_scope.md rule R6). -/
def ticksPerSecond : Nat := 40000000

/-- TICK_MAX, the largest count that fits the register pair (00_scope.md rule R8). -/
def tickMax : Nat := 65535

/-- NIBBLE_MASK (00_scope.md rule R8). -/
def nibbleMask : BitVec 16 := 0xFFF0

/-- MULT, the tick multiplier of each mode (00_scope.md rule R7, 41_tick.md rule R72).
UNVERIFIED (notes/assumptions/10.md), unsafe: the 3 of mode 2H rests on one sentence of the source. -/
def mult : Mode → Nat
  | .oneLow => 1
  | .oneHigh => 2
  | .twoLow => 4
  | .twoHigh => 3

/-- The unit size of each mode in bytes (00_scope.md rule R7). -/
def unitSize : Mode → Nat
  | .oneLow => 1
  | .oneHigh => 2
  | .twoLow => 4
  | .twoHigh => 2

end Sys2Proof.Machine
end

