-- ==== Sys2Proof/Machine/Operands.lean ====
section
/-!
DEFINITION. Operand forms: the register number of WR and RD with the five registers behind it (10_state.md rule
R14), and the assembly of a sample value from a byte or a word (30_encoding.md rules R57 and R58).
-/

namespace Sys2Proof.Machine

/-! ## CFG.MODE as two bits (00_scope.md rule R7: bit 1 = CH2, bit 0 = HR) -/

/-- The mode of a 2-bit code; all four are legal (10_state.md rule R19). -/
def modeOfBits (b : BitVec 2) : Mode :=
  match b.toNat with
  | 0 => .oneLow
  | 1 => .oneHigh
  | 2 => .twoLow
  | _ => .twoHigh

/-- The 2-bit code of a mode. -/
def modeBits : Mode → BitVec 2
  | .oneLow => 0
  | .oneHigh => 1
  | .twoLow => 2
  | .twoHigh => 3

/-! ## Registers -/

/-- The five registers of 10_state.md rule R14. -/
inductive RegName where
  | cfg
  | token
  | rate
  | status
  | mfcnt
deriving DecidableEq, Repr

/-- The register of a number; 5 to 15 are reserved (30_encoding.md rule R48). -/
def regOfNumber (addr : BitVec 4) : Option RegName :=
  match addr.toNat with
  | 0 => some .cfg
  | 1 => some .token
  | 2 => some .rate
  | 3 => some .status
  | 4 => some .mfcnt
  | _ => none

/-- A register's 32-bit value, reserved bits 0 (40_register_ops.md rule R67, 10_state.md rule R24). -/
def readReg (r : RegName) (s : State) : BitVec 32 :=
  match r with
  | .cfg => (0 : BitVec 29) ++ BitVec.ofBool s.strict ++ modeBits s.mode
  | .token => s.token.setWidth 32
  | .rate => s.rate
  | .status => (0 : BitVec 31) ++ BitVec.ofBool s.lock
  | .mfcnt => s.mfcnt

/-- WR CFG: MODE and STRICT together, data[31:3] dropped (40_register_ops.md rule R66). -/
def writeCfg (data : BitVec 32) (s : State) : State :=
  { s with mode := modeOfBits (data.extractLsb' 0 2), strict := data.getLsbD 2 }

/-- WR TOKEN: data[31:8] dropped (40_register_ops.md rule R66). -/
def writeToken (data : BitVec 32) (s : State) : State :=
  { s with token := data.extractLsb' 0 8 }

/-- WR RATE: every 32-bit value, 0 included (10_state.md rule R22). -/
def writeRate (data : BitVec 32) (s : State) : State :=
  { s with rate := data }

/-! ## Sample values -/

/-- `val` from a byte: zero-extended, never sign-extended (30_encoding.md rule R58). -/
def valOfByte (b : Byte) : BitVec 16 := b.setWidth 16

/-- The 16-bit word with sample bits `v` and marker `m` (30_encoding.md rule R54). -/
def wordOf (v : BitVec 12) (m : BitVec 4) : BitVec 16 := v ++ m

/-- `val` from a word: the low nibble cleared, no shift (30_encoding.md rule R57). -/
def valOfWord (w : BitVec 16) : BitVec 16 := w &&& nibbleMask

/-- `mk` from a word, w[3:0] (30_encoding.md rule R57). -/
def mkOfWord (w : BitVec 16) : BitVec 4 := w.extractLsb' 0 4

/-- `lane` of a variant-2H record: the parity of the word's index, `(pc div 2) mod 2` (42_decode.md rule R93). -/
def laneOfPos (pos : BitVec 17) : BitVec 1 := BitVec.ofNat 1 (pos.toNat / 2 % 2)

/-- `signed(val)`, the integer a sample stands for (00_scope.md rule R10). PRESUMED two's complement
(notes/assumptions/11.md), unsafe only for claims about integers; no step computes it. -/
def signedValue (val : BitVec 16) : Int := val.toInt

end Sys2Proof.Machine
end

