-- ==== Sys2Proof/Machine/Ops.lean ====
section
/-!
DEFINITION. The shared operations: responding, raising an error, emitting a record, the inside of a DECODE, and
the reset of the registers. Raising an error is 60_exceptions.md rule R110; there is no return from an error,
because nothing is saved and control goes nowhere (60_exceptions.md rules R110 and R111).
-/

namespace Sys2Proof.Machine

/-! ## Response words (30_encoding.md rule R50) -/

/-- The outcome codes. -/
inductive Code where
  | ok
  | configurationRangeError
  | malformedFrame
  | configLocked
  | illegalCommand
deriving DecidableEq, Repr

/-- The number of an outcome code (30_encoding.md rule R50). -/
def codeNumber : Code → BitVec 8
  | .ok => 0
  | .configurationRangeError => 1
  | .malformedFrame => 2
  | .configLocked => 3
  | .illegalCommand => 4

/-- `{code, data}`. -/
def responseWord (c : Code) (data : BitVec 32) : ResponseWord := codeNumber c ++ data

/-- Deliver a response word. -/
def respond (c : Code) (data : BitVec 32) (s : State) : State :=
  { s with delivered := s.delivered ++ [.response (responseWord c data)] }

/-! ## Errors (60_exceptions.md) -/

/-- The errors of 60_exceptions.md rule R102, each cause by its own name. -/
inductive BlockError where
  | configurationRange
  | malformedLength
  | malformedToken
  | configLocked
  | reservedOperation
  | reservedRegister
  | readOnlyRegister
deriving DecidableEq, Repr

/-- The code an error is reported with (60_exceptions.md rule R102). -/
def errorCode : BlockError → Code
  | .configurationRange => .configurationRangeError
  | .malformedLength => .malformedFrame
  | .malformedToken => .malformedFrame
  | .configLocked => .configLocked
  | .reservedOperation => .illegalCommand
  | .reservedRegister => .illegalCommand
  | .readOnlyRegister => .illegalCommand

/-- The data an error records (60_exceptions.md rule R102). -/
def errorInfo : BlockError → BitVec 32
  | .configurationRange => 0
  | .malformedLength => 0
  | .malformedToken => 1
  | .configLocked => 0
  | .reservedOperation => 0
  | .reservedRegister => 1
  | .readOnlyRegister => 2

/-- The registers an error changes (60_exceptions.md rule R110 (b)): LOCK and MFCNT for MalformedFrame, none
for any other. -/
def errorRegisters : BlockError → State → State
  | .configurationRange, s => s
  | .malformedLength, s => countMalformed (setLock s)
  | .malformedToken, s => countMalformed (setLock s)
  | .configLocked, s => s
  | .reservedOperation, s => s
  | .reservedRegister, s => s
  | .readOnlyRegister, s => s

/-- `raise` (60_exceptions.md rule R110): the registers of (b), then the response of (c). No record is delivered;
(a), discarding what a DECODE has built, is `closeChunk`, with which every DECODE ends (notes/assumptions/17.md,
DEDUCED). -/
def raise (e : BlockError) (s : State) : State :=
  respond (errorCode e) (errorInfo e) (errorRegisters e s)

/-! ## The inside of one DECODE (10_state.md rules R16 and R25, 42_decode.md rule R84) -/

/-- The start of the decode loop: LEN as the command gives it, `out` empty, `pc <- 0`. -/
def openChunk (len : BitVec 16) (s : State) : State :=
  { s with len := len, pos := 0, out := [] }

/-- The end of a DECODE: CB, LEN, `pos` and `out` are gone (10_state.md rules R16 and R25). -/
def closeChunk (s : State) : State :=
  { s with cb := [], len := 0, pos := 0, out := [] }

/-- `Emit(val, mk, lane)` (00_scope.md rule R11). -/
def emit (val : BitVec 16) (mk : BitVec 4) (lane : BitVec 1) (s : State) : State :=
  { s with out := s.out ++ [{ lane := lane, marker := mk, val := val }] }

/-- `pc <- pc + unit` (42_decode.md rule R84). -/
def advance (n : Nat) (s : State) : State :=
  { s with pos := s.pos + BitVec.ofNat 17 n }

/-- The 21 bits of a sample record, `{lane, mk, val}` (30_encoding.md rule R52). -/
def recordWord (r : Record) : SampleWord := r.lane ++ r.marker ++ r.val

/-- Deliver the records of the DECODE in progress, in order (42_decode.md rule R82). -/
def deliverRecords (s : State) : State :=
  { s with delivered := s.delivered ++ s.out.map fun r => .sample (recordWord r) }

/-- The end of a successful DECODE: the records, then OK with their number, then the chunk is gone. -/
def completeDecode (s : State) : State :=
  closeChunk (respond .ok (BitVec.ofNat 32 s.out.length) (deliverRecords s))

/-! ## Reset and the command port -/

/-- Every bit of state to its reset value (10_state.md rule R29). -/
def resetRegisters (s : State) : State :=
  { s with mode := .oneLow, strict := false, token := 0, rate := 0, lock := false, mfcnt := 0 }

/-- The state with these of the host's moves still to come. -/
def withPending (rest : List HostMove) (s : State) : State := { s with pending := rest }

/-- The chunk that accompanies a command word, in CB when the command is a DECODE (30_encoding.md rule R51).
Any other command leaves CB alone: only DECODE reaches it (20_memory.md rule R30; notes/assumptions/9.md, DESIGN
CHOICE). -/
def presentChunk (op : BitVec 4) (chunk : List Byte) (s : State) : State :=
  { s with cb := if op = 0x4 then Memory.ofBytes chunk else s.cb }

end Sys2Proof.Machine
end

