-- ==== Sys2Proof/Machine/FrameUnits.lean ====
section
/-!
DEFINITION. The four frame units: what one pass of the decode loop does with the unit at `pos`, emitting its
record or records and advancing `pos` by the unit size (42_decode.md rules R84 and R90 to R93;
notes/assumptions/16.md, DEDUCED).
-/

namespace Sys2Proof.Machine

/-- unit_1L (42_decode.md rule R90). -/
def execUnit1L (sample : Byte) (s : State) : Result :=
  .next (advance (unitSize .oneLow) (emit (valOfByte sample) 0 0 s))

/-- unit_1H (42_decode.md rule R91). -/
def execUnit1H (sample : BitVec 12) (marker : BitVec 4) (s : State) : Result :=
  let w := wordOf sample marker
  .next (advance (unitSize .oneHigh) (emit (valOfWord w) (mkOfWord w) 0 s))

/-- unit_2L (42_decode.md rule R92) on the two bytes it reads, those of channel A and channel B (20_memory.md rule
R37). -/
def emitPair (chanA chanB : Byte) (s : State) : Result :=
  .next (advance (unitSize .twoLow) (emit (valOfByte chanB) 0 1 (emit (valOfByte chanA) 0 0 s)))

/-- The row UNIT_2L (42_decode.md rule R92): its token and count bytes are discarded. -/
def execUnit2L (_token _count chanA chanB : Byte) (s : State) : Result := emitPair chanA chanB s

/-- unit_2H (42_decode.md rule R93). -/
def execUnit2H (sample : BitVec 12) (marker : BitVec 4) (s : State) : Result :=
  let w := wordOf sample marker
  .next (advance (unitSize .twoHigh) (emit (valOfWord w) (mkOfWord w) (laneOfPos s.pos) s))

end Sys2Proof.Machine
end

