-- ==== Sys2Proof/Machine/FrameDecoder.lean ====
section
/-!
DEFINITION. DECODE (42_decode.md): the two checks, then the loop that takes the chunk's units in arrival order.
-/

namespace Sys2Proof.Machine

/-- What a pass of the decode loop reads of a unit (20_memory.md rule R37): all of a byte or a word, and of a
quadruple the two sample bytes alone. -/
inductive UnitRead where
  | byte1L (sample : Byte)
  | word1H (sample : BitVec 12) (marker : BitVec 4)
  | pair2L (chanA chanB : Byte)
  | word2H (sample : BitVec 12) (marker : BitVec 4)
deriving DecidableEq, Repr

/-- Read the unit at `pos` under CFG.MODE; none where a byte that the pass reads does not exist. In 2L the token and
count bytes, at `pos` and `pos + 1`, are not read (20_memory.md rule R37, 70_reset_and_hazards.md rule R122;
notes/assumptions/13.md). -/
def fetchUnit (s : State) : Option UnitRead :=
  match s.mode with
  | .oneLow => (Memory.read s.cb s.pos.toNat).map .byte1L
  | .oneHigh =>
    (Memory.readWord s.cb s.pos.toNat).map fun w => .word1H (sampleField w) (markerField w)
  | .twoLow =>
    match Memory.read s.cb (s.pos.toNat + 2), Memory.read s.cb (s.pos.toNat + 3) with
    | some a, some b => some (.pair2L a b)
    | _, _ => none
  | .twoHigh =>
    (Memory.readWord s.cb s.pos.toNat).map fun w => .word2H (sampleField w) (markerField w)

/-- What a pass does with the unit it has read: the meaning of the unit's opcode-table row. -/
def runUnit (u : UnitRead) (s : State) : Result :=
  match u with
  | .byte1L v => execUnit1L v s
  | .word1H v m => execUnit1H v m s
  | .pair2L a b => emitPair a b s
  | .word2H v m => execUnit2H v m s

/-- The decode loop, `while pc != LEN`, bounded by the number of units (42_decode.md rules R84 and R89). -/
def unitLoop : Nat → State → Result
  | 0, s => .next s
  | n + 1, s =>
    if s.pos.toNat = s.len.toNat then .next s
    else
      match fetchUnit s with
      | none => .fault (.chunkOverrun s.pos.toNat)
      | some u =>
        match runUnit u s with
        | .next s' => unitLoop n s'
        | .fault r => .fault r
        | .refused r => .refused r

/-- The length check (42_decode.md rule R86). -/
def lengthOk (mode : Mode) (len : BitVec 16) : Bool := decide (len.toNat % unitSize mode = 0)

/-- Whether every quadruple's token byte `CB[4q]` equals TOKEN (42_decode.md rule R95). This first pass reads token
bytes and nothing else, and stops at the first that differs (70_reset_and_hazards.md rule R122). -/
def tokensMatch (token : Byte) (cb : Memory) (len : BitVec 16) : Bool :=
  (List.range (len.toNat / 4)).all fun q => decide (Memory.read cb (4 * q) = some token)

/-- Whether the token check applies and fails: STRICT = 1, mode 2L, some token differs (42_decode.md rule R95). -/
def tokenMismatch (s : State) (len : BitVec 16) : Bool :=
  decide (s.mode = .twoLow) && s.strict && !tokensMatch s.token s.cb len

/-- The decode of a chunk that lies in CB, LOCK already set (42_decode.md rule R84). -/
def decodeChunk (len : BitVec 16) (s : State) : Result :=
  if lengthOk s.mode len = false then .next (closeChunk (raise .malformedLength s))
  else if tokenMismatch s len = true then .next (closeChunk (raise .malformedToken s))
  else
    match unitLoop (len.toNat / unitSize s.mode) (openChunk len s) with
    | .next s' => .next (completeDecode s')
    | .fault r => .fault r
    | .refused r => .refused r

/-- DECODE (42_decode.md rule R82). A chunk of other than LEN bytes is refused: the spec defines no behaviour
for it and asks for a refusal (93_implementation_defined.md B2; notes/assumptions/3.md). -/
def execDecode (len : BitVec 16) (s : State) : Result :=
  if Memory.holdsExactly s.cb len.toNat = true then decodeChunk len (setLock s)
  else .refused .chunkNotPresented

end Sys2Proof.Machine
end

