-- ==== Sys2Proof/Machine/Register.lean ====
section
/-!
DEFINITION. The four operations that do no arithmetic: NOP, WR, RD and RST (40_register_ops.md).
-/

namespace Sys2Proof.Machine

/-- NOP (40_register_ops.md rule R65). -/
def execNop (s : State) : Result := .next (respond .ok 0 s)

/-- WR (40_register_ops.md rule R66), its checks in the order of 60_exceptions.md rule R109. -/
def execWr (addr : BitVec 4) (data : BitVec 32) (s : State) : Result :=
  match regOfNumber addr with
  | none => .next (raise .reservedRegister s)
  | some .status => .next (raise .readOnlyRegister s)
  | some .mfcnt => .next (raise .readOnlyRegister s)
  | some .cfg =>
    .next (if s.lock then raise .configLocked s else respond .ok 0 (writeCfg data s))
  | some .token =>
    .next (if s.lock then raise .configLocked s else respond .ok 0 (writeToken data s))
  | some .rate =>
    .next (if s.lock then raise .configLocked s else respond .ok 0 (writeRate data s))

/-- RD (40_register_ops.md rule R67). -/
def execRd (addr : BitVec 4) (s : State) : Result :=
  match regOfNumber addr with
  | none => .next (raise .reservedRegister s)
  | some r => .next (respond .ok (readReg r s) s)

/-- RST (40_register_ops.md rule R68). -/
def execRst (s : State) : Result := .next (respond .ok 0 (resetRegisters s))

end Sys2Proof.Machine
end

