-- ==== Sys2Proof/Machine/Reserved.lean ====
section
/-!
DEFINITION. The reserved operation codes: IllegalCommand, data 0, no state change (30_encoding.md rule R47,
60_exceptions.md rule R106).
-/

namespace Sys2Proof.Machine

/-- A command word with op 0x6 or 0x7. -/
def execReserved67 (_op : BitVec 4) (s : State) : Result := .next (raise .reservedOperation s)

/-- A command word with op 0x8 to 0xF. -/
def execReserved8F (_op : BitVec 4) (s : State) : Result := .next (raise .reservedOperation s)

end Sys2Proof.Machine
end

