-- ==== Sys2Proof/Machine/Tick.lean ====
section
/-!
DEFINITION. The tick-period divider calculation (41_tick.md): exact integer arithmetic, nothing wraps. The
rounding takes TIE_UP as an argument (41_tick.md rule R75); TICK gives it the open parameter.
-/

namespace Sys2Proof.Machine

/-- `N = rate × MULT[mode]`, at most 34 bits (41_tick.md rule R72). -/
def divisor (rate : BitVec 32) (mode : Mode) : Nat := rate.toNat * mult mode

/-- `round_nearest(40 000 000, N)` for a given TIE_UP (41_tick.md rule R74). -/
def roundNearest (tieUp : Nat → Bool) (n : Nat) : Nat :=
  let q := ticksPerSecond / n
  let rem := ticksPerSecond % n
  if 2 * rem < n then q
  else if n < 2 * rem then q + 1
  else q + (if tieUp n then 1 else 0)

/-- The tick register pair, `highByte` and `lowByte` (30_encoding.md rule R59). -/
def tickPair (ticks : Nat) : Byte × Byte :=
  ((BitVec.ofNat 16 ticks).extractLsb' 8 8, (BitVec.ofNat 16 ticks).extractLsb' 0 8)

/-- `tick(rate, mode)` for a given TIE_UP; none is RangeError (41_tick.md rule R71). -/
def tick (tieUp : Nat → Bool) (rate : BitVec 32) (mode : Mode) : Option (Byte × Byte) :=
  if rate = 0 then none
  else
    let ticks := roundNearest tieUp (divisor rate mode)
    if ticks = 0 ∨ tickMax < ticks then none else some (tickPair ticks)

/-- TICK (41_tick.md rule R69). -/
def execTick (s : State) : Result :=
  match tick Config.tieUp s.rate s.mode with
  | none => .next (raise .configurationRange s)
  | some (high, low) => .next (respond .ok ((0 : BitVec 16) ++ high ++ low) s)

end Sys2Proof.Machine
end

