-- ==== Sys2Proof/Machine/Dispatch.lean ====
section
/-!
DEFINITION. One arm per constructor of Instr, each a direct call of that row's meaning.
-/

namespace Sys2Proof.Machine

def exec (i : Instr) (s : State) : Host.Outcome State Fault Refusal :=
  match i with
  | .nop => Sys2Proof.Machine.execNop s
  | .wr addr data => Sys2Proof.Machine.execWr addr data s
  | .rd addr => Sys2Proof.Machine.execRd addr s
  | .tick => Sys2Proof.Machine.execTick s
  | .decode len => Sys2Proof.Machine.execDecode len s
  | .rst => Sys2Proof.Machine.execRst s
  | .reserved67 op => Sys2Proof.Machine.execReserved67 op s
  | .reserved8F op => Sys2Proof.Machine.execReserved8F op s
  | .unit1L sample => Sys2Proof.Machine.execUnit1L sample s
  | .unit1H sample marker => Sys2Proof.Machine.execUnit1H sample marker s
  | .unit2L token count chanA chanB => Sys2Proof.Machine.execUnit2L token count chanA chanB s
  | .unit2H sample marker => Sys2Proof.Machine.execUnit2H sample marker s

end Sys2Proof.Machine
end

