-- ==== Sys2Proof/Machine/Port.lean ====
section
/-!
DEFINITION. The host's side of the command port: the reset input, taking a command word, and the host move that
puts one row of the opcode table before the block.
-/

namespace Sys2Proof.Machine

/-- The reset input between two operations: every bit of state to its reset value, no response
(70_reset_and_hazards.md rule R115). -/
def takeReset (rest : List HostMove) (s : State) : State := resetRegisters (withPending rest s)

/-- The state in which a command word's instruction runs: the command taken off the port, its chunk presented. -/
def takeCommand (cw : CommandWord) (chunk : List Byte) (rest : List HostMove) (s : State) : State :=
  presentChunk (opField cw) chunk (withPending rest s)

/-- A command word whose chunk, when it is a DECODE, is LEN zero bytes. -/
def commandMove (cw : CommandWord) : HostMove :=
  .command cw (if opField cw = 0x4 then List.replicate (lenField cw).toNat 0 else [])

/-- A DECODE of a chunk. -/
def decodeMove (bytes : List Byte) : HostMove :=
  .command (commandWord 0x4 0 (BitVec.ofNat 32 bytes.length)) bytes

/-- The mode a W2 unit is read under: 2H if that is configured, else 1H. -/
def wordModeOf : Mode → Mode
  | .oneLow => .oneHigh
  | .oneHigh => .oneHigh
  | .twoLow => .oneHigh
  | .twoHigh => .twoHigh

/-- The host about to issue one row of the opcode table as its next move. A command row is that command word. A
unit row is a DECODE of the chunk that is the one unit, in the row's mode (the table's `selector`), and for a
quadruple with no token check. -/
def issueEncoding (e : Encoding) (s : State) : State :=
  match e with
  | .command cw => withPending (commandMove cw :: s.pending) s
  | .unit mode bytes =>
    { withPending (decodeMove bytes :: s.pending) s with
      mode := mode
      strict := if mode = .twoLow then false else s.strict }

end Sys2Proof.Machine
end

