-- ==== Sys2Proof/Machine/Step.lean ====
section
/-!
DEFINITION. One step: the block takes the host's next move and carries it out whole (00_scope.md rule R12,
20_memory.md rule R39). With no move to take, the block waits (70_reset_and_hazards.md rule R116).
-/

namespace Sys2Proof.Machine

/-- The step. -/
def step (s : State) : Host.Outcome State Fault Refusal :=
  match s.pending with
  | [] => .next s
  | .reset :: rest => .next (takeReset rest s)
  | .command cw chunk :: rest => exec (decodeCommand cw) (takeCommand cw chunk rest s)

/-- The state in which the host's next move issues the opcode-table row with bits `w`
(notes/assumptions/8.md, DESIGN CHOICE). A number of bits that no row has changes nothing. -/
def State.withFetchWord (s : State) (nbits w : Nat) : State :=
  match tableEncoding (wordModeOf s.mode) nbits w with
  | none => s
  | some e => issueEncoding e s

end Sys2Proof.Machine
end

