-- ==== Sys2Proof/Machine/Assembly.lean ====
section
/-!
DEFINITION. The spec's assembler (30_encoding.md rules R62 and R63): one line of its syntax, as a term, and the
command it stands for. Characters, comments and number bases are not modelled (notes/assumptions/15.md).
-/

namespace Sys2Proof.Machine

/-- One line of the assembler's syntax. -/
inductive AsmLine where
  | nop
  | wr (reg : BitVec 4) (value : BitVec 32)
  | rd (reg : BitVec 4)
  | tick
  | decode (chunk : List Byte)
  | rst
  /-- `.cw`: a command word verbatim, and the chunk the host presents with it (95_test_vectors.md V-D17). -/
  | cw (word : CommandWord) (chunk : List Byte)
  /-- `SETMODE`, with or without `, STRICT`. -/
  | setMode (mode : Mode) (strict : Bool)
  | setRate (hz : BitVec 32)
  | setToken (byte : Byte)
deriving DecidableEq, Repr

/-- The register numbers behind the assembler's register names (10_state.md rule R14). -/
def regNumber : RegName → BitVec 4
  | .cfg => 0
  | .token => 1
  | .rate => 2
  | .status => 3
  | .mfcnt => 4

/-- The instruction a line stands for (30_encoding.md rules R62 and R63). -/
def asmInstr : AsmLine → Instr
  | .nop => .nop
  | .wr reg value => .wr reg value
  | .rd reg => .rd reg
  | .tick => .tick
  | .decode chunk => .decode (BitVec.ofNat 16 chunk.length)
  | .rst => .rst
  | .cw word _ => decodeCommand word
  | .setMode mode strict =>
    .wr (regNumber .cfg) ((0 : BitVec 29) ++ BitVec.ofBool strict ++ modeBits mode)
  | .setRate hz => .wr (regNumber .rate) hz
  | .setToken byte => .wr (regNumber .token) (byte.setWidth 32)

/-- The command word a line stands for: that of its instruction, with zeros in the ignored fields; `.cw` gives its
word verbatim. -/
def asmWord : AsmLine → CommandWord
  | .cw word _ => word
  | .decode chunk => commandWord 0x4 0 (BitVec.ofNat 32 chunk.length)
  | line =>
    match encode (asmInstr line) with
    | .command word => word
    | .unit _ _ => 0

/-- The move of a host that issues a line: its command word, and the bytes that `DECODE` lists. -/
def assemble (line : AsmLine) : HostMove :=
  match line with
  | .decode chunk => .command (asmWord line) chunk
  | .cw word chunk => .command word chunk
  | _ => .command (asmWord line) []

end Sys2Proof.Machine
end

