-- ==== Sys2Proof/Safety.lean ====
section
/-!
DEFINITION. The terms claims are made in: a host that keeps its duties (70_reset_and_hazards.md rule R119), and
a block between two operations (00_scope.md rule R12).
-/

namespace Sys2Proof.Machine

/-- A host move that keeps the hand-over duty: a DECODE comes with exactly LEN bytes (30_encoding.md rule R51). -/
def HostMove.dutiful : HostMove → Bool
  | .reset => true
  | .command cw chunk => decide (opField cw = 0x4 → chunk.length = (lenField cw).toNat)

/-- Every pending move of the host is dutiful. -/
def State.dutiful (s : State) : Bool := s.pending.all HostMove.dutiful

/-- No DECODE in progress: the chunk buffer and all that lives inside one DECODE are gone (10_state.md rules R16
and R25). -/
def State.quiet (s : State) : Bool :=
  decide (s.cb = [] ∧ s.len = 0 ∧ s.pos = 0 ∧ s.out = [])

end Sys2Proof.Machine
end

