-- ==== Sys2Proof/Certificates/Slice0/Obligations.lean ====
section
/-!
DEFINITION. The statements for the provers. The vocabulary at the head spells out the spec's own formats, tables
and record lists, so that a statement reads against the rule it cites and not against the model's helpers.
-/

namespace Sys2Proof.Claims

open Sys2Proof.Machine

/-- RW = `{code, data}` (30_encoding.md rule R50). -/
def rw (code : BitVec 8) (data : BitVec 32) : ResponseWord := code ++ data

/-- The response in the delivered sequence. -/
def reply (code : BitVec 8) (data : BitVec 32) : Output := .response (rw code data)

/-- SR = `{lane, mk, val}` (30_encoding.md rule R52). -/
def sr (lane : BitVec 1) (mk : BitVec 4) (val : BitVec 16) : Output := .sample (lane ++ mk ++ val)

/-- `s` with more words delivered and nothing else changed. -/
def also (s : State) (outs : List Output) : State := { s with delivered := s.delivered ++ outs }

/-- `s` after a DECODE that delivered `outs`: LOCK set, the chunk gone (rules R83 and R25), nothing else changed. -/
def afterDecode (s : State) (outs : List Output) : State :=
  { s with lock := true, cb := [], len := 0, pos := 0, out := [], delivered := s.delivered ++ outs }

/-- `sat32(MFCNT + 1)` (10_state.md rule R23). -/
def counted (c : BitVec 32) : BitVec 32 := if c = 0xFFFFFFFF then c else c + 1

/-- MULT (41_tick.md rule R72). -/
def multiplier : Mode → Nat
  | .oneLow => 1
  | .oneHigh => 2
  | .twoLow => 4
  | .twoHigh => 3

/-- The unit size in bytes (00_scope.md rule R7). -/
def unitBytes : Mode → Nat
  | .oneLow => 1
  | .oneHigh => 2
  | .twoLow => 4
  | .twoHigh => 2

/-- The 2-bit code of a mode (00_scope.md rule R7). -/
def modeCode : Mode → BitVec 2
  | .oneLow => 0b00
  | .oneHigh => 0b01
  | .twoLow => 0b10
  | .twoHigh => 0b11

/-- `N = RATE × MULT[MODE]` (41_tick.md rule R72). -/
def tickN (s : State) : Nat := s.rate.toNat * multiplier s.mode

/-- The eight ties of 41_tick.md rule R75. -/
def tieTable : List Nat := [1024, 5120, 25600, 128000, 640000, 3200000, 16000000, 80000000]

/-- The little-endian words of a chunk (20_memory.md rule R32). -/
def chunkWords : List Byte → List (BitVec 16)
  | lo :: hi :: rest => (hi ++ lo) :: chunkWords rest
  | _ => []

/-- The records of a 1L chunk (42_decode.md rule R90). -/
def samples1L (bytes : List Byte) : List Output := bytes.map fun b => sr 0 0 ((0 : BitVec 8) ++ b)

/-- The records of a 1H chunk (42_decode.md rule R91). -/
def samples1H (bytes : List Byte) : List Output :=
  (chunkWords bytes).map fun w => sr 0 (w.extractLsb' 0 4) (w &&& 0xFFF0)

/-- The records of a 2L chunk (42_decode.md rule R92). -/
def samples2L : List Byte → List Output
  | _ :: _ :: a :: b :: rest => sr 0 0 ((0 : BitVec 8) ++ a) :: sr 1 0 ((0 : BitVec 8) ++ b) :: samples2L rest
  | _ => []

/-- The records of 2H words, the first of which has index parity `lane` (42_decode.md rule R93). -/
def laned (lane : BitVec 1) : List (BitVec 16) → List Output
  | [] => []
  | w :: ws => sr lane (w.extractLsb' 0 4) (w &&& 0xFFF0) :: laned (lane + 1) ws

/-- The records of a 2H chunk (42_decode.md rule R93). -/
def samples2H (bytes : List Byte) : List Output := laned 0 (chunkWords bytes)

/-- Every quadruple's token byte `CB[4q]` equals TOKEN (42_decode.md rule R95). -/
def tokensEqual (token : Byte) (bytes : List Byte) : Prop :=
  ∀ q, 4 * q < bytes.length → bytes[4 * q]? = some token

/-- The chunk is one the block rejects under `s`'s configuration (42_decode.md rules R86 and R95). -/
def malformed (s : State) (bytes : List Byte) : Prop :=
  bytes.length % unitBytes s.mode ≠ 0 ∨
    (s.mode = .twoLow ∧ s.strict = true ∧ ¬ tokensEqual s.token bytes)

/-- The `val` fields of the sample records among delivered words, in order. -/
def valsOf : List Output → List (BitVec 16)
  | [] => []
  | .sample w :: rest => w.extractLsb' 0 16 :: valsOf rest
  | .response _ :: rest => valsOf rest

/-- A W2 value with its marker, packed little-endian: `(v[7:0] OR m, v[15:8])` (42_decode.md rule R100). -/
def packWords : List (BitVec 16 × BitVec 4) → List Byte
  | [] => []
  | (v, m) :: rest => (v.extractLsb' 0 8 ||| m.setWidth 8) :: v.extractLsb' 8 8 :: packWords rest

/-- Quadruples `(t, c, a, b)` as bytes (42_decode.md rule R100). -/
def packQuads : List (Byte × Byte × Byte × Byte) → List Byte
  | [] => []
  | (t, c, a, b) :: rest => t :: c :: a :: b :: packQuads rest

/-- The bits of a command word that its operation uses (30_encoding.md rule R45). -/
def usedBits (cw : CommandWord) : CommandWord :=
  if cw.extractLsb' 36 4 = 1 then 0xFFFFFFFFFF
  else if cw.extractLsb' 36 4 = 2 then 0xFF00000000
  else if cw.extractLsb' 36 4 = 4 then 0xF00000FFFF
  else 0xF000000000

/-- The mode of a 2-bit code (00_scope.md rule R7). -/
def modeWithCode (code : BitVec 2) : Mode :=
  if code = 0b00 then .oneLow else if code = 0b01 then .oneHigh else if code = 0b10 then .twoLow else .twoHigh

/-- `s` with configuration register 0, 1 or 2 written (40_register_ops.md rule R66). -/
def configured (s : State) (addr : BitVec 4) (data : BitVec 32) : State :=
  if addr = 0 then { s with mode := modeWithCode (data.extractLsb' 0 2), strict := data.getLsbD 2 }
  else if addr = 1 then { s with token := data.extractLsb' 0 8 }
  else { s with rate := data }

/-- `s` with the chunk of a DECODE in the buffer; any other command leaves the buffer as it is
(notes/assumptions/9.md, DESIGN CHOICE). -/
def presented (s : State) (cw : CommandWord) (chunk : List Byte) : State :=
  { s with cb := if cw.extractLsb' 36 4 = 4 then Memory.ofBytes chunk else s.cb }

/-- The opcode-table rows of a chunk's units in arrival order (30_encoding.md rules R53 to R56). -/
def unitRows : Mode → List Byte → List Instr
  | .oneLow, bytes => bytes.map .unit1L
  | .oneHigh, bytes => (chunkWords bytes).map fun w => .unit1H (w.extractLsb' 4 12) (w.extractLsb' 0 4)
  | .twoLow, t :: c :: a :: b :: rest => .unit2L t c a b :: unitRows .twoLow rest
  | .twoLow, _ => []
  | .twoHigh, bytes => (chunkWords bytes).map fun w => .unit2H (w.extractLsb' 4 12) (w.extractLsb' 0 4)

/-- Running instructions one after another, each to its next state. -/
def execAll : List Instr → State → Result
  | [], s => .next s
  | i :: rest, s =>
    match exec i s with
    | .next t => execAll rest t
    | .fault r => .fault r
    | .refused r => .refused r

end Sys2Proof.Claims

open Sys2Proof Sys2Proof.Machine Sys2Proof.Claims

/-! ## Encoding -/

/-- Decoding the encoding of a well-formed instruction gives it back, with every operand. -/
def Obligations.DecodeInvertsEncode : Prop :=
  ∀ i : Instr, i.wellFormed = true → decode (encode i) = .ok i

/-- Encoding what a command word decodes to gives the word back with only its ignored bits cleared, and what it
decodes to is well formed. -/
def Obligations.EncodeKeepsUsedBits : Prop :=
  ∀ cw : CommandWord, (decodeCommand cw).wellFormed = true ∧
    encode (decodeCommand cw) = .command (cw &&& usedBits cw)

/-- A command word's operation, by its `op` field (30_encoding.md rules R44, R45, R47). -/
def Obligations.OperationCodeSelectsOperation : Prop :=
  ∀ (op addr : BitVec 4) (data : BitVec 32),
    let cw : CommandWord := op ++ addr ++ data
    (op = 0x0 → decodeCommand cw = .nop) ∧
    (op = 0x1 → decodeCommand cw = .wr addr data) ∧
    (op = 0x2 → decodeCommand cw = .rd addr) ∧
    (op = 0x3 → decodeCommand cw = .tick) ∧
    (op = 0x4 → decodeCommand cw = .decode (data.extractLsb' 0 16)) ∧
    (op = 0x5 → decodeCommand cw = .rst) ∧
    (op = 0x6 ∨ op = 0x7 → decodeCommand cw = .reserved67 op) ∧
    (0x8 ≤ op.toNat → decodeCommand cw = .reserved8F op)

/-- Two command words that differ only in bits their operation ignores do the same (30_encoding.md rule R46). -/
def Obligations.IgnoredFieldsChangeNothing : Prop :=
  ∀ (s : State) (cw cw' : CommandWord) (chunk : List Byte) (rest : List HostMove),
    cw &&& usedBits cw = cw' &&& usedBits cw' →
    step { s with pending := .command cw chunk :: rest } = step { s with pending := .command cw' chunk :: rest }

/-- A few command words written out from the encodings of 95_test_vectors.md. -/
def Obligations.WrittenOutWordsDecode : Prop :=
  decodeCommand 0x0FDEADBEEF = .nop ∧ decodeCommand 0x12000186A0 = .wr 2 100000 ∧
  decodeCommand 0x2300000000 = .rd 3 ∧ decodeCommand 0x3000000000 = .tick ∧
  decodeCommand 0x4FABCD0002 = .decode 2 ∧ decodeCommand 0x5000000000 = .rst ∧
  decodeCommand 0x7000000000 = .reserved67 7 ∧ decodeCommand 0xF000000000 = .reserved8F 15

/-- The bytes of a unit of each format, as 30_encoding.md rules R53 to R56 lay them out. -/
def Obligations.FrameUnitBytesDecode : Prop :=
  ∀ (b t c a d : Byte) (v : BitVec 12) (m : BitVec 4),
    decode (.unit .oneLow [b]) = .ok (.unit1L b) ∧
    decode (.unit .oneHigh [v.extractLsb' 0 4 ++ m, v.extractLsb' 4 8]) = .ok (.unit1H v m) ∧
    decode (.unit .twoLow [t, c, a, d]) = .ok (.unit2L t c a d) ∧
    decode (.unit .twoHigh [v.extractLsb' 0 4 ++ m, v.extractLsb' 4 8]) = .ok (.unit2H v m)

/-- Bytes that are not exactly one unit are rejected by name. -/
def Obligations.PartialUnitsRejected : Prop :=
  ∀ (m : Mode) (bytes : List Byte),
    (bytes.length < unitBytes m → decodeUnit m bytes = .error (.partialUnit m)) ∧
    (unitBytes m < bytes.length → decodeUnit m bytes = .error (.trailingBytes m)) ∧
    (bytes.length = unitBytes m → ∃ u, decodeUnit m bytes = .ok u)

/-- The assembler's lines and the command words they stand for (30_encoding.md rules R62 and R63): each
pseudo-command is exactly one WR. -/
def Obligations.AssemblerLinesStandForTheListedWords : Prop :=
  (∀ (reg : BitVec 4) (value : BitVec 32) (word : CommandWord) (chunk : List Byte),
    assemble .nop = .command 0x0000000000 [] ∧
    assemble (.wr reg value) = .command ((0x1 : BitVec 4) ++ reg ++ value) [] ∧
    assemble (.rd reg) = .command ((0x2 : BitVec 4) ++ reg ++ (0 : BitVec 32)) [] ∧
    assemble .tick = .command 0x3000000000 [] ∧
    assemble (.decode chunk) = .command ((0x40 : BitVec 8) ++ BitVec.ofNat 32 chunk.length) chunk ∧
    assemble .rst = .command 0x5000000000 [] ∧
    assemble (.cw word chunk) = .command word chunk) ∧
  (∀ (m : Mode) (hz : BitVec 32) (byte : Byte),
    asmInstr (.setMode m false) = .wr 0 ((modeCode m).setWidth 32) ∧
    asmInstr (.setMode m true) = .wr 0 ((modeCode m).setWidth 32 + 4) ∧
    asmInstr (.setRate hz) = .wr 2 hz ∧
    asmInstr (.setToken byte) = .wr 1 (byte.setWidth 32)) ∧
  (∀ line : AsmLine, (∀ chunk, line ≠ .decode chunk) → decodeCommand (asmWord line) = asmInstr line) ∧
  (∀ chunk : List Byte, chunk.length < 65536 →
    decodeCommand (asmWord (.decode chunk)) = asmInstr (.decode chunk))

/-! ## The step -/

/-- A step takes the command at the head of the port and runs the instruction it decodes to, on the state with
that command taken and, for a DECODE, its chunk in the buffer. That bytes presented with any other command are dropped,
and the buffer stays, is the model's choice (notes/assumptions/9.md, DESIGN CHOICE). -/
def Obligations.StepRunsTheDecodedCommand : Prop :=
  ∀ (s : State) (cw : CommandWord) (chunk : List Byte) (rest : List HostMove),
    s.pending = .command cw chunk :: rest →
    step s = exec (decodeCommand cw)
      { s with pending := rest, cb := if cw.extractLsb' 36 4 = 4 then Memory.ofBytes chunk else s.cb }

/-- A pass of the decode loop runs the instruction that the bytes at `pos` decode to under CFG.MODE
(42_decode.md rule R84). -/
def Obligations.DecodeLoopRunsTheUnitAtPos : Prop :=
  ∀ (s : State) (n : Nat) (bytes : List Byte) (i : Instr),
    s.pos.toNat ≠ s.len.toNat →
    (∀ k, k < unitBytes s.mode → Memory.read s.cb (s.pos.toNat + k) = bytes[k]?) →
    decode (.unit s.mode bytes) = .ok i →
    ∃ t, exec i s = .next t ∧ unitLoop (n + 1) s = unitLoop n t

/-- The reset input (70_reset_and_hazards.md rule R115): every register at its reset value, no response and no
record; RST has the same effect and answers. -/
def Obligations.ResetInputResetsEveryRegister : Prop :=
  (∀ (s : State) (rest : List HostMove), s.pending = .reset :: rest →
    step s = .next { s with
      pending := rest, mode := .oneLow, strict := false, token := 0x00, rate := 0, lock := false, mfcnt := 0 }) ∧
  (∀ s : State, exec .rst s = .next (also
    { s with mode := .oneLow, strict := false, token := 0x00, rate := 0, lock := false, mfcnt := 0 } [reply 0 0]))

/-- With no move of the host's to take, the block waits unchanged (the model's choice, notes/assumptions/8.md). -/
def Obligations.StepWaitsForACommand : Prop :=
  ∀ s : State, s.pending = [] → step s = .next s

/-- Reset and RST leave the values of 10_state.md rule R29, and a TICK straight after reset fails. -/
def Obligations.ResetValues : Prop :=
  (State.reset.mode = .oneLow ∧ State.reset.strict = false ∧ State.reset.token = 0x00 ∧
    State.reset.rate = 0 ∧ State.reset.lock = false ∧ State.reset.mfcnt = 0) ∧
  (∀ s : State, ∃ t, exec .rst s = .next t ∧ t.mode = .oneLow ∧ t.strict = false ∧ t.token = 0x00 ∧
    t.rate = 0 ∧ t.lock = false ∧ t.mfcnt = 0) ∧
  exec .tick State.reset = .next (also State.reset [reply 1 0])

/-- What holds without any initialisation (70_reset_and_hazards.md rule R118): DECODE uses variant 1L with no token
check, TICK fails, RD returns 0 from every register. -/
def Obligations.UsableStraightAfterReset : Prop :=
  (∀ bytes : List Byte, bytes.length < 65536 →
    exec (.decode (BitVec.ofNat 16 bytes.length)) { State.reset with cb := Memory.ofBytes bytes } =
      .next (afterDecode State.reset (samples1L bytes ++ [reply 0 (BitVec.ofNat 32 bytes.length)]))) ∧
  exec .tick State.reset = .next (also State.reset [reply 1 0]) ∧
  (∀ addr : BitVec 4, addr.toNat < 5 → exec (.rd addr) State.reset = .next (also State.reset [reply 0 0]))

/-! ## NOP, WR, RD, RST and the reserved codes -/

/-- NOP (40_register_ops.md rule R65). -/
def Obligations.NopOnlyResponds : Prop :=
  ∀ s : State, exec .nop s = .next (also s [reply 0 0])

/-- WR (40_register_ops.md rule R66), for every register number and both phases. -/
def Obligations.WrChecksThenWrites : Prop :=
  ∀ (s : State) (addr : BitVec 4) (data : BitVec 32),
    (5 ≤ addr.toNat → exec (.wr addr data) s = .next (also s [reply 4 1])) ∧
    (addr = 3 ∨ addr = 4 → exec (.wr addr data) s = .next (also s [reply 4 2])) ∧
    (addr.toNat < 3 → s.lock = true → exec (.wr addr data) s = .next (also s [reply 3 0])) ∧
    (addr = 0 → s.lock = false → ∃ m, modeCode m = data.extractLsb' 0 2 ∧
      exec (.wr addr data) s = .next (also { s with mode := m, strict := data.getLsbD 2 } [reply 0 0])) ∧
    (addr = 1 → s.lock = false →
      exec (.wr addr data) s = .next (also { s with token := data.extractLsb' 0 8 } [reply 0 0])) ∧
    (addr = 2 → s.lock = false →
      exec (.wr addr data) s = .next (also { s with rate := data } [reply 0 0]))

/-- RD (40_register_ops.md rule R67), for every register number. -/
def Obligations.RdReturnsTheRegister : Prop :=
  ∀ (s : State) (addr : BitVec 4),
    (5 ≤ addr.toNat → exec (.rd addr) s = .next (also s [reply 4 1])) ∧
    (addr = 0 → exec (.rd addr) s =
      .next (also s [reply 0 ((0 : BitVec 29) ++ BitVec.ofBool s.strict ++ modeCode s.mode)])) ∧
    (addr = 1 → exec (.rd addr) s = .next (also s [reply 0 ((0 : BitVec 24) ++ s.token)])) ∧
    (addr = 2 → exec (.rd addr) s = .next (also s [reply 0 s.rate])) ∧
    (addr = 3 → exec (.rd addr) s =
      .next (also s [reply 0 ((0 : BitVec 31) ++ BitVec.ofBool s.lock)])) ∧
    (addr = 4 → exec (.rd addr) s = .next (also s [reply 0 s.mfcnt]))

/-- RST (40_register_ops.md rule R68): every bit of state at its reset value, answered with OK; no other operation
clears LOCK or MFCNT. -/
def Obligations.RstRestoresResetValues : Prop :=
  ∀ s : State,
    exec .rst s = .next (also
      { s with mode := .oneLow, strict := false, token := 0x00, rate := 0, lock := false, mfcnt := 0 }
      [reply 0 0]) ∧
    ∀ (i : Instr) (t : State), i ≠ .rst → exec i s = .next t →
      (s.lock = true → t.lock = true) ∧ (s.mfcnt ≠ 0 → t.mfcnt ≠ 0)

/-- A command word with a reserved operation code changes no state, emits nothing and is answered with
IllegalCommand, data 0 (30_encoding.md rule R47). -/
def Obligations.ReservedOperationsOnlyAnswer : Prop :=
  ∀ s : State,
    (∀ op : BitVec 4, exec (.reserved67 op) s = .next (also s [reply 4 0])) ∧
    (∀ op : BitVec 4, exec (.reserved8F op) s = .next (also s [reply 4 0])) ∧
    (∀ cw : CommandWord, 6 ≤ (cw.extractLsb' 36 4).toNat →
      exec (decodeCommand cw) s = .next (also s [reply 4 0]))

/-- Reserved register bits hold nothing: a write drops them without error and a read returns them as 0
(10_state.md rule R24). -/
def Obligations.ReservedBitsReadAsZero : Prop :=
  ∀ (s : State) (data : BitVec 32),
    (s.lock = false →
      (∃ t u, exec (.wr 0 data) s = .next t ∧ exec (.rd 0) t = .next u ∧
        u.delivered = s.delivered ++ [reply 0 0, reply 0 (data &&& 0x00000007)]) ∧
      (∃ t u, exec (.wr 1 data) s = .next t ∧ exec (.rd 1) t = .next u ∧
        u.delivered = s.delivered ++ [reply 0 0, reply 0 (data &&& 0x000000FF)]) ∧
      (∃ t u, exec (.wr 2 data) s = .next t ∧ exec (.rd 2) t = .next u ∧
        u.delivered = s.delivered ++ [reply 0 0, reply 0 data])) ∧
    (∃ u, exec (.rd 3) s = .next u ∧
      u.delivered = s.delivered ++ [reply 0 (if s.lock then 1 else 0)])

/-! ## TICK -/

/-- TICK by quotient and remainder (41_tick.md rules R69, R71, R72, R74, R76 and R78). -/
def Obligations.TickByQuotientAndRemainder : Prop :=
  ∀ (s : State) (ticks : Nat),
    (s.rate = 0 → exec .tick s = .next (also s [reply 1 0])) ∧
    (s.rate ≠ 0 →
      (2 * (40000000 % tickN s) < tickN s ∧ ticks = 40000000 / tickN s ∨
       2 * (40000000 % tickN s) > tickN s ∧ ticks = 40000000 / tickN s + 1 ∨
       2 * (40000000 % tickN s) = tickN s ∧
         ticks = 40000000 / tickN s + if Config.tieUp (tickN s) then 1 else 0) →
      exec .tick s = .next (also s [
        if ticks = 0 ∨ 65535 < ticks then reply 1 0
        else reply 0 ((0 : BitVec 16) ++ (BitVec.ofNat 16 ticks).extractLsb' 8 8 ++
          (BitVec.ofNat 16 ticks).extractLsb' 0 8)]))

/-- A count in range that is strictly nearer to 40 000 000 / N than any other is the one TICK returns. -/
def Obligations.TickReturnsTheNearestCount : Prop :=
  ∀ (s : State) (ticks : Nat), 0 < tickN s → 1 ≤ ticks → ticks ≤ 65535 →
    (2 * ticks - 1) * tickN s < 80000000 → 80000000 < (2 * ticks + 1) * tickN s →
    exec .tick s = .next (also s [reply 0 (BitVec.ofNat 32 ticks)])

/-- TICK always answers, and it succeeds exactly for N from 611 to 79 999 999, and for 80 000 000 when TIE_UP
rounds that half up; else the answer is ConfigurationRangeError. The bounds are the spec's own inference ("In
terms of N [derived: from rule R74]", 41_tick.md section 2). -/
def Obligations.TickSucceedsExactlyInRange : Prop :=
  ∀ s : State,
    if 611 ≤ tickN s ∧ tickN s ≤ 79999999 ∨ tickN s = 80000000 ∧ Config.tieUp 80000000 = true then
      ∃ ticks, 1 ≤ ticks ∧ ticks ≤ 65466 ∧ exec .tick s = .next (also s [reply 0 (BitVec.ofNat 32 ticks)])
    else exec .tick s = .next (also s [reply 1 0])

/-- Whenever TICK succeeds, the encoded period is within half a tick of the requested one (the spec's own
inference from rule R74, 41_tick.md section 3). -/
def Obligations.TickErrorAtMostHalfATick : Prop :=
  ∀ (s t : State) (d : BitVec 32), exec .tick s = .next t → t.delivered = s.delivered ++ [reply 0 d] →
    2 * (d.toNat * tickN s - 40000000) ≤ tickN s ∧ 2 * (40000000 - d.toNat * tickN s) ≤ tickN s

/-- The rounding depends on TIE_UP exactly at the eight listed divisors (the spec's own inference, 41_tick.md
section 2). -/
def Obligations.TiesAreTheEightListed : Prop :=
  ∀ n : Nat, 0 < n →
    (n ∉ tieTable → ∀ f g : Nat → Bool, roundNearest f n = roundNearest g n) ∧
    (n ∈ tieTable → ∀ f : Nat → Bool,
      roundNearest f n = 40000000 / n + if f n then 1 else 0)

/-- In mode 2H no rate is a tie, so TICK there does not depend on TIE_UP (the spec's own inference, 41_tick.md
section 2). -/
def Obligations.TwoHighNeverTies : Prop :=
  ∀ (rate : BitVec 32) (f g : Nat → Bool), tick f rate .twoHigh = tick g rate .twoHigh

/-- For a constant TIE_UP the tick count does not increase with N (the spec's own inference, 41_tick.md section
3). -/
def Obligations.TickCountNonIncreasing : Prop :=
  ∀ (up : Bool) (n m : Nat), 0 < n → n ≤ m → roundNearest (fun _ => up) m ≤ roundNearest (fun _ => up) n

/-- TICK is a query: its answer depends only on RATE and CFG.MODE (41_tick.md rule R70), and it always answers. -/
def Obligations.TickIsAPureQuery : Prop :=
  ∀ s s' : State, s.rate = s'.rate → s.mode = s'.mode →
    ∃ w, exec .tick s = .next (also s [.response w]) ∧ exec .tick s' = .next (also s' [.response w])

/-! ## DECODE -/

/-- Variant 1L (42_decode.md rule R90). -/
def Obligations.Decode1LDeliversEveryByte : Prop :=
  ∀ (s : State) (bytes : List Byte), bytes.length < 65536 → s.cb = Memory.ofBytes bytes →
    s.mode = .oneLow →
    exec (.decode (BitVec.ofNat 16 bytes.length)) s =
      .next (afterDecode s (samples1L bytes ++ [reply 0 (BitVec.ofNat 32 bytes.length)]))

/-- Variant 1H (42_decode.md rule R91). -/
def Obligations.Decode1HDeliversMaskedWords : Prop :=
  ∀ (s : State) (bytes : List Byte), bytes.length < 65536 → s.cb = Memory.ofBytes bytes →
    s.mode = .oneHigh →
    exec (.decode (BitVec.ofNat 16 bytes.length)) s = .next (
      if bytes.length % 2 = 0 then
        afterDecode s (samples1H bytes ++ [reply 0 (BitVec.ofNat 32 (bytes.length / 2))])
      else afterDecode { s with mfcnt := counted s.mfcnt } [reply 2 0])

/-- Variant 2L (42_decode.md rule R92): without STRICT the token and count bytes are discarded unseen; a partial
quadruple is rejected with or without STRICT. -/
def Obligations.Decode2LInterleavesChannels : Prop :=
  ∀ (s : State) (bytes : List Byte), bytes.length < 65536 → s.cb = Memory.ofBytes bytes →
    s.mode = .twoLow →
    (bytes.length % 4 = 0 → s.strict = false →
      exec (.decode (BitVec.ofNat 16 bytes.length)) s =
        .next (afterDecode s (samples2L bytes ++ [reply 0 (BitVec.ofNat 32 (bytes.length / 2))]))) ∧
    (bytes.length % 4 ≠ 0 →
      exec (.decode (BitVec.ofNat 16 bytes.length)) s =
        .next (afterDecode { s with mfcnt := counted s.mfcnt } [reply 2 0]))

/-- Variant 2H (42_decode.md rule R93). -/
def Obligations.Decode2HKeepsInterleaveOrder : Prop :=
  ∀ (s : State) (bytes : List Byte), bytes.length < 65536 → s.cb = Memory.ofBytes bytes →
    s.mode = .twoHigh →
    exec (.decode (BitVec.ofNat 16 bytes.length)) s = .next (
      if bytes.length % 2 = 0 then
        afterDecode s (samples2H bytes ++ [reply 0 (BitVec.ofNat 32 (bytes.length / 2))])
      else afterDecode { s with mfcnt := counted s.mfcnt } [reply 2 0])

/-- A chunk that is not a whole number of units is rejected whole, whatever its bytes (42_decode.md rules R86 and
R87): no record, LOCK set, MFCNT counted once, cause 0. -/
def Obligations.DecodeRejectsBadLength : Prop :=
  ∀ (s : State) (bytes : List Byte), bytes.length < 65536 → s.cb = Memory.ofBytes bytes →
    bytes.length % unitBytes s.mode ≠ 0 →
    exec (.decode (BitVec.ofNat 16 bytes.length)) s =
      .next (afterDecode { s with mfcnt := counted s.mfcnt } [reply 2 0])

/-- The strict token check (42_decode.md rule R95): under STRICT in mode 2L a chunk with any wrong token byte is
rejected whole, cause 1; with every token byte right it is decoded as without STRICT, where no token is looked at. -/
def Obligations.StrictTokenCheck : Prop :=
  ∀ (s : State) (bytes : List Byte), bytes.length < 65536 → s.cb = Memory.ofBytes bytes →
    s.mode = .twoLow → bytes.length % 4 = 0 →
    (s.strict = true → ¬ tokensEqual s.token bytes →
      exec (.decode (BitVec.ofNat 16 bytes.length)) s =
        .next (afterDecode { s with mfcnt := counted s.mfcnt } [reply 2 1])) ∧
    ((s.strict = true → tokensEqual s.token bytes) →
      exec (.decode (BitVec.ofNat 16 bytes.length)) s =
        .next (afterDecode s (samples2L bytes ++ [reply 0 (BitVec.ofNat 32 (bytes.length / 2))])))

/-- The empty chunk is well formed in every mode (42_decode.md rule R98). -/
def Obligations.EmptyChunkSucceeds : Prop :=
  ∀ s : State, s.cb = [] → exec (.decode 0) s = .next (afterDecode s [reply 0 0])

/-- A chunk of other than LEN bytes is refused (the model's choice, notes/assumptions/3.md). -/
def Obligations.WrongChunkLengthRefused : Prop :=
  ∀ (s : State) (bytes : List Byte) (len : BitVec 16), s.cb = Memory.ofBytes bytes →
    bytes.length ≠ len.toNat → exec (.decode len) s = .refused .chunkNotPresented

/-- DECODE answers for every LEN and every bytes, with LOCK set, the configuration as it was and the chunk gone
(42_decode.md rules R82 and R83). -/
def Obligations.DecodeAlwaysAnswersAndLocks : Prop :=
  ∀ (s : State) (len : BitVec 16) (bytes : List Byte), s.cb = Memory.ofBytes bytes →
    bytes.length = len.toNat →
    ∃ (c : BitVec 32) (outs : List Output),
      exec (.decode len) s = .next (afterDecode { s with mfcnt := c } outs) ∧
      (c = s.mfcnt ∨ c = counted s.mfcnt)

/-- What DECODE delivers and how it moves MFCNT depends on CFG, TOKEN, LEN and the chunk alone (42_decode.md rule
R85): RATE, LOCK, MFCNT and what was delivered before play no part. -/
def Obligations.DecodeReadsOnlyItsArguments : Prop :=
  ∀ (s s' t : State) (len : BitVec 16), s.mode = s'.mode → s.strict = s'.strict → s.token = s'.token →
    s.cb = s'.cb → exec (.decode len) s = .next t →
    ∃ (t' : State) (outs : List Output), exec (.decode len) s' = .next t' ∧
      t.delivered = s.delivered ++ outs ∧ t'.delivered = s'.delivered ++ outs ∧
      (t.mfcnt = s.mfcnt ∧ t'.mfcnt = s'.mfcnt ∨ t.mfcnt = counted s.mfcnt ∧ t'.mfcnt = counted s'.mfcnt)

/-- A WR of any of the three configuration registers takes full effect before the next command, whatever that is
(70_reset_and_hazards.md section 4): the next step runs the next command on the written configuration, and a command
that comes with its chunk delivers just what it delivers where that configuration has always stood. (What a chunk with
another command does is the model's choice, notes/assumptions/9.md.) -/
def Obligations.WriteSeenByTheNextCommand : Prop :=
  ∀ (s : State) (addr : BitVec 4) (data : BitVec 32) (cw : CommandWord) (chunk : List Byte) (rest : List HostMove),
    s.lock = false → addr.toNat < 3 →
    s.pending = .command ((0x1 : BitVec 4) ++ addr ++ data) [] :: .command cw chunk :: rest →
    ∃ t, step s = .next t ∧
      step t = exec (decodeCommand cw)
        (presented { also (configured s addr data) [reply 0 0] with pending := rest } cw chunk) ∧
      ((cw.extractLsb' 36 4 = 4 → chunk.length = (cw.extractLsb' 0 16).toNat) →
        ∃ u v outs, exec (decodeCommand cw) (presented (configured s addr data) cw chunk) = .next v ∧
          v.delivered = s.delivered ++ outs ∧ step t = .next u ∧
          u.delivered = s.delivered ++ [reply 0 0] ++ outs)

/-- The same chunk decoded twice delivers the same words twice (42_decode.md rule R85). -/
def Obligations.SameChunkTwiceSameRecords : Prop :=
  ∀ (s : State) (bytes : List Byte) (rest : List HostMove), bytes.length < 65536 →
    s.pending = decodeMove bytes :: decodeMove bytes :: rest →
    ∃ (t u : State) (outs : List Output), step s = .next t ∧ step t = .next u ∧
      t.delivered = s.delivered ++ outs ∧ u.delivered = t.delivered ++ outs ∧ u.pending = rest

/-- A rejected chunk leaves nothing behind: the next chunk is decoded as if the bad one had never been presented,
and only MFCNT differs (42_decode.md rule R88). -/
def Obligations.NextChunkUnaffectedByMalformedOne : Prop :=
  ∀ (s : State) (bad good : List Byte) (rest : List HostMove), bad.length < 65536 → good.length < 65536 →
    s.pending = decodeMove bad :: decodeMove good :: rest → malformed s bad →
    ∃ (t u v : State) (outs : List Output) (cause : BitVec 32),
      step s = .next t ∧ t.delivered = s.delivered ++ [reply 2 cause] ∧ t.mfcnt = counted s.mfcnt ∧
      step t = .next u ∧ step { s with pending := decodeMove good :: rest } = .next v ∧
      v.delivered = s.delivered ++ outs ∧
      u = { v with delivered := t.delivered ++ outs, mfcnt := u.mfcnt }

/-- The domain of what DECODE produces (42_decode.md section 5): 0 to 255 with no marker in the 8-bit variants,
multiples of 16 from −32768 to 32752 in the 12-bit ones, read as two's complement (PRESUMED,
notes/assumptions/11.md). -/
def Obligations.DecodedValuesStayInDomain : Prop :=
  ∀ (s t : State) (len : BitVec 16) (outs : List Output) (w : SampleWord),
    exec (.decode len) s = .next t → t.delivered = s.delivered ++ outs → .sample w ∈ outs →
    (s.mode = .oneLow ∨ s.mode = .twoLow →
      0 ≤ signedValue (w.extractLsb' 0 16) ∧ signedValue (w.extractLsb' 0 16) ≤ 255 ∧
      w.extractLsb' 16 4 = 0) ∧
    (s.mode = .oneHigh ∨ s.mode = .twoHigh →
      ∃ k : Int, -2048 ≤ k ∧ k ≤ 2047 ∧ signedValue (w.extractLsb' 0 16) = 16 * k)

/-- Encoding a pattern into bytes and decoding recovers it, whatever markers, token bytes and count bytes were
chosen, for each of the four variants (42_decode.md rule R100). -/
def Obligations.PackedValuesDecodeBack : Prop :=
  ∀ s : State,
    (∀ vals : List Byte, vals.length < 65536 → s.mode = .oneLow → s.cb = Memory.ofBytes vals →
      ∃ t outs, exec (.decode (BitVec.ofNat 16 vals.length)) s = .next t ∧
        t.delivered = s.delivered ++ outs ∧ valsOf outs = vals.map fun b => b.setWidth 16) ∧
    (∀ vms : List (BitVec 16 × BitVec 4), 2 * vms.length < 65536 → s.mode = .oneHigh ∨ s.mode = .twoHigh →
      (∀ p ∈ vms, p.1 &&& 0x000F = 0) → s.cb = Memory.ofBytes (packWords vms) →
      ∃ t outs, exec (.decode (BitVec.ofNat 16 (2 * vms.length))) s = .next t ∧
        t.delivered = s.delivered ++ outs ∧ valsOf outs = vms.map Prod.fst) ∧
    (∀ quads : List (Byte × Byte × Byte × Byte), 4 * quads.length < 65536 → s.mode = .twoLow →
      s.strict = false → s.cb = Memory.ofBytes (packQuads quads) →
      ∃ t outs, exec (.decode (BitVec.ofNat 16 (4 * quads.length))) s = .next t ∧
        t.delivered = s.delivered ++ outs ∧
        valsOf outs = quads.flatMap fun (_, _, a, b) => [a.setWidth 16, b.setWidth 16])

/-- The decode loop is its frame units: over a chunk of whole units it answers what running the rows of the units in
order, with exec, answers; it ends with `pos = LEN` and has changed only `out`, by appending, and `pos`
(42_decode.md rules R84 and R89, 10_state.md rule R16). -/
def Obligations.DecodeLoopEndsAtLen : Prop :=
  ∀ (s : State) (bytes : List Byte), bytes.length < 65536 → s.cb = Memory.ofBytes bytes →
    bytes.length % unitBytes s.mode = 0 → s.len = BitVec.ofNat 16 bytes.length → s.pos = 0 →
    ∃ recs, execAll (unitRows s.mode bytes) s =
        .next { s with pos := BitVec.ofNat 17 bytes.length, out := s.out ++ recs } ∧
      unitLoop (bytes.length / unitBytes s.mode) s =
        .next { s with pos := BitVec.ofNat 17 bytes.length, out := s.out ++ recs }

/-! ## Frame units -/

/-- Each frame unit emits its record or records and advances `pos` by the unit size, and changes nothing else
(42_decode.md rules R90 to R93). The spec says so of a pass inside a DECODE; that a unit row is an instruction of exec
with this effect on every state is the model's reading (notes/assumptions/16.md, DEDUCED), and so is that UNIT_2L has
its token and count bytes as operands, which it discards (notes/assumptions/13.md, DESIGN CHOICE). -/
def Obligations.FrameUnitsEmitTheirRecords : Prop :=
  ∀ (s : State) (x t c a b : Byte) (v : BitVec 12) (m : BitVec 4),
    exec (.unit1L x) s = .next { s with
      out := s.out ++ [{ lane := 0, marker := 0, val := (0 : BitVec 8) ++ x }], pos := s.pos + 1 } ∧
    exec (.unit1H v m) s = .next { s with
      out := s.out ++ [{ lane := 0, marker := m, val := v ++ (0 : BitVec 4) }], pos := s.pos + 2 } ∧
    exec (.unit2L t c a b) s = .next { s with
      out := s.out ++ [{ lane := 0, marker := 0, val := (0 : BitVec 8) ++ a },
        { lane := 1, marker := 0, val := (0 : BitVec 8) ++ b }], pos := s.pos + 4 } ∧
    exec (.unit2H v m) s = .next { s with
      out := s.out ++ [{ lane := s.pos.extractLsb' 1 1, marker := m, val := v ++ (0 : BitVec 4) }],
      pos := s.pos + 2 }

/-! ## The machine as a whole -/

/-- Every command is answered by exactly one response word, delivered after the command's sample records, which
only a DECODE that succeeds has; the code is 0 to 4 (30_encoding.md rule R50). -/
def Obligations.EveryCommandOneResponse : Prop :=
  ∀ (s t : State) (cw : CommandWord) (chunk : List Byte) (rest : List HostMove),
    s.pending = .command cw chunk :: rest → step s = .next t →
    ∃ (recs : List SampleWord) (w : ResponseWord),
      t.delivered = s.delivered ++ recs.map Output.sample ++ [.response w] ∧ t.pending = rest ∧
      (w.extractLsb' 32 8).toNat ≤ 4 ∧
      (recs ≠ [] → cw.extractLsb' 36 4 = 4 ∧ w = rw 0 (BitVec.ofNat 32 recs.length))

/-- A host that keeps its duties is never left without an answer: a step from a state whose pending moves are all
dutiful neither faults nor refuses, and it ends in such a state. -/
def Obligations.DutifulHostAlwaysAnswered : Prop :=
  ∀ s : State, s.dutiful = true → ∃ t, step s = .next t ∧ t.dutiful = true

/-- No undutiful move is pending after reset: none is pending at all (the model's choice, notes/assumptions/5.md). -/
def Obligations.ResetIsDutiful : Prop := State.reset.dutiful = true

/-- Errors are precise: when the last word delivered is an error response, no record came with it and the state is
the old one but for the changes 60_exceptions.md rule R110 (b) lists (and the end of the DECODE). -/
def Obligations.ErrorsArePrecise : Prop :=
  ∀ (s t : State) (cw : CommandWord) (chunk : List Byte) (rest : List HostMove) (outs : List Output)
    (w : ResponseWord), s.pending = .command cw chunk :: rest → step s = .next t →
    t.delivered = s.delivered ++ outs ++ [.response w] → w.extractLsb' 32 8 ≠ 0 →
    outs = [] ∧
    (w.extractLsb' 32 8 = 2 → t = { s with
      pending := rest, lock := true, mfcnt := counted s.mfcnt, cb := [], len := 0, pos := 0, out := [],
      delivered := s.delivered ++ [.response w] }) ∧
    (w.extractLsb' 32 8 ≠ 2 → t = { s with
      pending := rest, delivered := s.delivered ++ [.response w] })

/-- While LOCK is 1, only the reset input and RST change the configuration or LOCK (10_state.md rule R17,
60_exceptions.md rules R105 and R113). -/
def Obligations.LockedConfigurationImmutable : Prop :=
  ∀ s t : State, s.lock = true → step s = .next t →
    (t.mode = s.mode ∧ t.strict = s.strict ∧ t.token = s.token ∧ t.rate = s.rate ∧ t.lock = true) ∨
    (∃ rest, s.pending = .reset :: rest) ∨
    (∃ cw chunk rest, s.pending = .command cw chunk :: rest ∧ cw.extractLsb' 36 4 = 5)

/-- LOCK after a step: set by every DECODE whatever its outcome, cleared by the reset input and RST, and by nothing
else changed (10_state.md section 4). -/
def Obligations.LockSetExactlyByDecode : Prop :=
  ∀ s t : State, step s = .next t →
    (s.pending = [] → t.lock = s.lock) ∧
    (∀ rest, s.pending = .reset :: rest → t.lock = false) ∧
    (∀ cw chunk rest, s.pending = .command cw chunk :: rest →
      t.lock = if cw.extractLsb' 36 4 = 4 then true else if cw.extractLsb' 36 4 = 5 then false else s.lock)

/-- MFCNT counts MalformedFrame outcomes, saturating, and nothing but reset and RST changes it otherwise
(10_state.md rule R23). -/
def Obligations.MfcntCountsMalformedFrames : Prop :=
  ∀ s t : State, step s = .next t →
    (s.pending = [] → t.mfcnt = s.mfcnt) ∧
    (∀ rest, s.pending = .reset :: rest → t.mfcnt = 0) ∧
    (∀ cw chunk rest outs w, s.pending = .command cw chunk :: rest →
      t.delivered = s.delivered ++ outs ++ [.response w] →
      t.mfcnt = if cw.extractLsb' 36 4 = 5 then 0
        else if w.extractLsb' 32 8 = 2 then counted s.mfcnt else s.mfcnt)

/-- Between operations nothing of a DECODE survives: a step from such a state ends in such a state. -/
def Obligations.NothingSurvivesAnOperation : Prop :=
  ∀ s t : State, s.quiet = true → step s = .next t → t.quiet = true

/-- No DECODE is in progress after reset. -/
def Obligations.ResetIsQuiet : Prop := State.reset.quiet = true

/-- The chunk buffer keeps its canonical form through every instruction and every step. -/
def Obligations.ChunkBufferStaysCanonical : Prop :=
  ∀ s t : State, s.cb.wf = true →
    (step s = .next t → t.cb.wf = true) ∧ (∀ i : Instr, exec i s = .next t → t.cb.wf = true)

/-- The buffer at reset has the canonical form. -/
def Obligations.ResetChunkBufferCanonical : Prop := State.reset.cb.wf = true

/-- No instruction but a DECODE changes the chunk buffer: every address reads as before. -/
def Obligations.OnlyDecodeTouchesTheBuffer : Prop :=
  ∀ (i : Instr) (s t : State), (∀ len, i ≠ .decode len) → exec i s = .next t →
    ∀ a, Memory.read t.cb a = Memory.read s.cb a

/-! ## What a DECODE reads of its chunk -/

/-- In 2L nothing depends on the count byte of any quadruple, nor, without STRICT, on its token byte: two chunks that
agree on the other bytes have the same outcome (20_memory.md rule R37). -/
def Obligations.UnreadBytesChangeNothing : Prop :=
  ∀ (s : State) (len : BitVec 16) (bytes bytes' : List Byte), s.mode = .twoLow → bytes.length = bytes'.length →
    (∀ a, a % 4 = 2 ∨ a % 4 = 3 ∨ (a % 4 = 0 ∧ s.strict = true) → bytes[a]? = bytes'[a]?) →
    bytes.length = len.toNat →
    ∃ t, exec (.decode len) { s with cb := Memory.ofBytes bytes } = .next t ∧
      exec (.decode len) { s with cb := Memory.ofBytes bytes' } = .next t

/-- In 2L the two passes of a DECODE depend on different bytes (70_reset_and_hazards.md rule R122): the token check on
those at offsets 4q alone, the decode loop on those at 4q + 2 and 4q + 3 alone. -/
def Obligations.TokenAndSamplePassesAreApart : Prop :=
  ∀ (s : State) (m m' : Memory), s.mode = .twoLow →
    ((∀ q, Memory.read m (4 * q) = Memory.read m' (4 * q)) →
      ∀ len, tokenMismatch { s with cb := m } len = tokenMismatch { s with cb := m' } len) ∧
    (s.pos.toNat % 4 = 0 → (∀ a, a % 4 = 2 ∨ a % 4 = 3 → Memory.read m a = Memory.read m' a) →
      ∀ (n : Nat) (t : State), unitLoop n { s with cb := m } = .next t →
        unitLoop n { s with cb := m' } = .next { t with cb := m' })
end

