-- ==== Sys2Proof/Laws/Fields.lean ====
section
/-!
SUPPORT. The small lemmas of the bit-field definitions: what each field of a packed word is. The first four are
about concatenations of any widths; the others are instances of them.
-/

namespace Sys2Proof

section Concatenation

variable {a b c : Nat} (x : BitVec a) (y : BitVec b) (z : BitVec c)

theorem extract_append_high : (x ++ y).extractLsb' b a = x := by
  ext i hi
  simp [BitVec.getLsbD_append, BitVec.getLsbD_eq_getElem hi]

theorem extract_append_low : (x ++ y).extractLsb' 0 b = y := by
  ext i hi
  simp [BitVec.getLsbD_append, hi]

theorem extract_append_low_part (n : Nat) (h : n ≤ b) : (x ++ y).extractLsb' 0 n = y.extractLsb' 0 n := by
  ext i hi
  have : i < b := by omega
  simp [BitVec.getLsbD_append, this]

theorem extract_append_first : (x ++ y ++ z).extractLsb' (c + b) a = x := by
  ext i hi
  have h1 : ¬ c + b + i < c := by omega
  have h2 : ¬ c + b + i - c < b := by omega
  have h3 : c + b + i - c - b = i := by omega
  simp [BitVec.getLsbD_append, h1, h2, h3, BitVec.getLsbD_eq_getElem hi]

theorem extract_append_middle : (x ++ y ++ z).extractLsb' c b = y := by
  ext i hi
  simp [BitVec.getLsbD_append, hi]

end Concatenation

/-! ## Command words (30_encoding.md rule R44) -/

variable (op addr : BitVec 4) (data : BitVec 32)

@[simp] theorem opField_commandWord : opField (commandWord op addr data) = op :=
  extract_append_first op addr data

@[simp] theorem addrField_commandWord : addrField (commandWord op addr data) = addr :=
  extract_append_middle op addr data

@[simp] theorem dataField_commandWord : dataField (commandWord op addr data) = data :=
  extract_append_low (op ++ addr) data

@[simp] theorem lenField_commandWord : lenField (commandWord op addr data) = data.extractLsb' 0 16 :=
  extract_append_low_part (op ++ addr) data 16 (by decide)

/-! ## Frame words (30_encoding.md rules R54 and R57) -/

@[simp] theorem sampleField_append (v : BitVec 12) (m : BitVec 4) : sampleField (v ++ m) = v :=
  extract_append_high v m

@[simp] theorem markerField_append (v : BitVec 12) (m : BitVec 4) : markerField (v ++ m) = m :=
  extract_append_low v m

/-- A bit vector is its high bits over its low bits. -/
theorem append_extract_extract {n m : Nat} (x : BitVec (n + m)) :
    x.extractLsb' m n ++ x.extractLsb' 0 m = x := by
  rw [BitVec.extractLsb'_append_extractLsb'_eq_extractLsb' (by omega), BitVec.extractLsb'_eq_self]

/-- A word put together from its two fields is the word. -/
theorem sampleField_append_markerField (w : BitVec 16) : sampleField w ++ markerField w = w :=
  append_extract_extract (n := 12) (m := 4) w

/-- A W2 unit's two bytes, put together little-endian, are its sample bits over its marker. -/
@[simp] theorem leWord_of_bytes (v : BitVec 12) (m : BitVec 4) :
    leWord (wordLowByte v m) (wordHighByte v) = v ++ m := by
  have hassoc : v.extractLsb' 4 8 ++ v.extractLsb' 0 4 ++ m =
      (v.extractLsb' 4 8 ++ (v.extractLsb' 0 4 ++ m)).cast (by decide) := BitVec.append_assoc
  have hjoin : v.extractLsb' 4 8 ++ v.extractLsb' 0 4 = v := append_extract_extract (n := 8) (m := 4) v
  exact hassoc.symm.trans (congrArg (· ++ m) hjoin)

/-! ## Response words and sample records (30_encoding.md rules R50 and R52) -/

namespace Machine

@[simp] theorem responseWord_code (c : Code) (d : BitVec 32) :
    (responseWord c d).extractLsb' 32 8 = codeNumber c := extract_append_high _ _

@[simp] theorem responseWord_data (c : Code) (d : BitVec 32) :
    (responseWord c d).extractLsb' 0 32 = d := extract_append_low _ _

@[simp] theorem recordWord_lane (r : Record) : (recordWord r).extractLsb' 20 1 = r.lane :=
  extract_append_first _ _ _

@[simp] theorem recordWord_marker (r : Record) : (recordWord r).extractLsb' 16 4 = r.marker :=
  extract_append_middle _ _ _

@[simp] theorem recordWord_val (r : Record) : (recordWord r).extractLsb' 0 16 = r.val :=
  extract_append_low _ _

/-- The outcome codes are told apart by their numbers. -/
theorem codeNumber_injective {c d : Code} (h : codeNumber c = codeNumber d) : c = d := by
  cases c <;> cases d <;> first | rfl | (revert h; decide)

end Machine

/-! ## Register numbers (30_encoding.md rule R48) -/

namespace Machine

/-- The reserved register numbers are 5 to 15. -/
theorem regOfNumber_eq_none_iff (n : BitVec 4) : regOfNumber n = none ↔ 5 ≤ n.toNat := by
  revert n
  decide

@[simp] theorem modeOfBits_modeBits (m : Mode) : modeOfBits (modeBits m) = m := by cases m <;> rfl

@[simp] theorem modeBits_modeOfBits (b : BitVec 2) : modeBits (modeOfBits b) = b := by
  revert b
  decide

end Machine

end Sys2Proof
end

