-- ==== Sys2Proof/Laws/State.lean ====
section
/-!
SUPPORT. One lemma per field of State per update, so that no later proof unfolds a record update.
-/

namespace Sys2Proof.Machine

variable (s : State)

/-! ## setLock -/

@[simp] theorem setLock_mode : (setLock s).mode = s.mode := rfl
@[simp] theorem setLock_strict : (setLock s).strict = s.strict := rfl
@[simp] theorem setLock_token : (setLock s).token = s.token := rfl
@[simp] theorem setLock_rate : (setLock s).rate = s.rate := rfl
@[simp] theorem setLock_lock : (setLock s).lock = true := rfl
@[simp] theorem setLock_mfcnt : (setLock s).mfcnt = s.mfcnt := rfl
@[simp] theorem setLock_cb : (setLock s).cb = s.cb := rfl
@[simp] theorem setLock_len : (setLock s).len = s.len := rfl
@[simp] theorem setLock_pos : (setLock s).pos = s.pos := rfl
@[simp] theorem setLock_out : (setLock s).out = s.out := rfl
@[simp] theorem setLock_pending : (setLock s).pending = s.pending := rfl
@[simp] theorem setLock_delivered : (setLock s).delivered = s.delivered := rfl

/-! ## countMalformed -/

@[simp] theorem countMalformed_mode : (countMalformed s).mode = s.mode := rfl
@[simp] theorem countMalformed_strict : (countMalformed s).strict = s.strict := rfl
@[simp] theorem countMalformed_token : (countMalformed s).token = s.token := rfl
@[simp] theorem countMalformed_rate : (countMalformed s).rate = s.rate := rfl
@[simp] theorem countMalformed_lock : (countMalformed s).lock = s.lock := rfl
@[simp] theorem countMalformed_mfcnt :
    (countMalformed s).mfcnt = BitVec.ofNat 32 (sat32 (s.mfcnt.toNat + 1)) := rfl
@[simp] theorem countMalformed_cb : (countMalformed s).cb = s.cb := rfl
@[simp] theorem countMalformed_len : (countMalformed s).len = s.len := rfl
@[simp] theorem countMalformed_pos : (countMalformed s).pos = s.pos := rfl
@[simp] theorem countMalformed_out : (countMalformed s).out = s.out := rfl
@[simp] theorem countMalformed_pending : (countMalformed s).pending = s.pending := rfl
@[simp] theorem countMalformed_delivered : (countMalformed s).delivered = s.delivered := rfl

/-! ## writeCfg -/

@[simp] theorem writeCfg_mode (data : BitVec 32) :
    (writeCfg data s).mode = modeOfBits (data.extractLsb' 0 2) := rfl
@[simp] theorem writeCfg_strict (data : BitVec 32) : (writeCfg data s).strict = data.getLsbD 2 := rfl
@[simp] theorem writeCfg_token (data : BitVec 32) : (writeCfg data s).token = s.token := rfl
@[simp] theorem writeCfg_rate (data : BitVec 32) : (writeCfg data s).rate = s.rate := rfl
@[simp] theorem writeCfg_lock (data : BitVec 32) : (writeCfg data s).lock = s.lock := rfl
@[simp] theorem writeCfg_mfcnt (data : BitVec 32) : (writeCfg data s).mfcnt = s.mfcnt := rfl
@[simp] theorem writeCfg_cb (data : BitVec 32) : (writeCfg data s).cb = s.cb := rfl
@[simp] theorem writeCfg_len (data : BitVec 32) : (writeCfg data s).len = s.len := rfl
@[simp] theorem writeCfg_pos (data : BitVec 32) : (writeCfg data s).pos = s.pos := rfl
@[simp] theorem writeCfg_out (data : BitVec 32) : (writeCfg data s).out = s.out := rfl
@[simp] theorem writeCfg_pending (data : BitVec 32) : (writeCfg data s).pending = s.pending := rfl
@[simp] theorem writeCfg_delivered (data : BitVec 32) : (writeCfg data s).delivered = s.delivered := rfl

/-! ## writeToken -/

@[simp] theorem writeToken_mode (data : BitVec 32) : (writeToken data s).mode = s.mode := rfl
@[simp] theorem writeToken_strict (data : BitVec 32) : (writeToken data s).strict = s.strict := rfl
@[simp] theorem writeToken_token (data : BitVec 32) : (writeToken data s).token = data.extractLsb' 0 8 := rfl
@[simp] theorem writeToken_rate (data : BitVec 32) : (writeToken data s).rate = s.rate := rfl
@[simp] theorem writeToken_lock (data : BitVec 32) : (writeToken data s).lock = s.lock := rfl
@[simp] theorem writeToken_mfcnt (data : BitVec 32) : (writeToken data s).mfcnt = s.mfcnt := rfl
@[simp] theorem writeToken_cb (data : BitVec 32) : (writeToken data s).cb = s.cb := rfl
@[simp] theorem writeToken_len (data : BitVec 32) : (writeToken data s).len = s.len := rfl
@[simp] theorem writeToken_pos (data : BitVec 32) : (writeToken data s).pos = s.pos := rfl
@[simp] theorem writeToken_out (data : BitVec 32) : (writeToken data s).out = s.out := rfl
@[simp] theorem writeToken_pending (data : BitVec 32) : (writeToken data s).pending = s.pending := rfl
@[simp] theorem writeToken_delivered (data : BitVec 32) : (writeToken data s).delivered = s.delivered := rfl

/-! ## writeRate -/

@[simp] theorem writeRate_mode (data : BitVec 32) : (writeRate data s).mode = s.mode := rfl
@[simp] theorem writeRate_strict (data : BitVec 32) : (writeRate data s).strict = s.strict := rfl
@[simp] theorem writeRate_token (data : BitVec 32) : (writeRate data s).token = s.token := rfl
@[simp] theorem writeRate_rate (data : BitVec 32) : (writeRate data s).rate = data := rfl
@[simp] theorem writeRate_lock (data : BitVec 32) : (writeRate data s).lock = s.lock := rfl
@[simp] theorem writeRate_mfcnt (data : BitVec 32) : (writeRate data s).mfcnt = s.mfcnt := rfl
@[simp] theorem writeRate_cb (data : BitVec 32) : (writeRate data s).cb = s.cb := rfl
@[simp] theorem writeRate_len (data : BitVec 32) : (writeRate data s).len = s.len := rfl
@[simp] theorem writeRate_pos (data : BitVec 32) : (writeRate data s).pos = s.pos := rfl
@[simp] theorem writeRate_out (data : BitVec 32) : (writeRate data s).out = s.out := rfl
@[simp] theorem writeRate_pending (data : BitVec 32) : (writeRate data s).pending = s.pending := rfl
@[simp] theorem writeRate_delivered (data : BitVec 32) : (writeRate data s).delivered = s.delivered := rfl

/-! ## respond -/

@[simp] theorem respond_mode (c : Code) (data : BitVec 32) : (respond c data s).mode = s.mode := rfl
@[simp] theorem respond_strict (c : Code) (data : BitVec 32) : (respond c data s).strict = s.strict := rfl
@[simp] theorem respond_token (c : Code) (data : BitVec 32) : (respond c data s).token = s.token := rfl
@[simp] theorem respond_rate (c : Code) (data : BitVec 32) : (respond c data s).rate = s.rate := rfl
@[simp] theorem respond_lock (c : Code) (data : BitVec 32) : (respond c data s).lock = s.lock := rfl
@[simp] theorem respond_mfcnt (c : Code) (data : BitVec 32) : (respond c data s).mfcnt = s.mfcnt := rfl
@[simp] theorem respond_cb (c : Code) (data : BitVec 32) : (respond c data s).cb = s.cb := rfl
@[simp] theorem respond_len (c : Code) (data : BitVec 32) : (respond c data s).len = s.len := rfl
@[simp] theorem respond_pos (c : Code) (data : BitVec 32) : (respond c data s).pos = s.pos := rfl
@[simp] theorem respond_out (c : Code) (data : BitVec 32) : (respond c data s).out = s.out := rfl
@[simp] theorem respond_pending (c : Code) (data : BitVec 32) : (respond c data s).pending = s.pending := rfl
@[simp] theorem respond_delivered (c : Code) (data : BitVec 32) :
    (respond c data s).delivered = s.delivered ++ [.response (responseWord c data)] := rfl

/-! ## openChunk -/

@[simp] theorem openChunk_mode (len : BitVec 16) : (openChunk len s).mode = s.mode := rfl
@[simp] theorem openChunk_strict (len : BitVec 16) : (openChunk len s).strict = s.strict := rfl
@[simp] theorem openChunk_token (len : BitVec 16) : (openChunk len s).token = s.token := rfl
@[simp] theorem openChunk_rate (len : BitVec 16) : (openChunk len s).rate = s.rate := rfl
@[simp] theorem openChunk_lock (len : BitVec 16) : (openChunk len s).lock = s.lock := rfl
@[simp] theorem openChunk_mfcnt (len : BitVec 16) : (openChunk len s).mfcnt = s.mfcnt := rfl
@[simp] theorem openChunk_cb (len : BitVec 16) : (openChunk len s).cb = s.cb := rfl
@[simp] theorem openChunk_len (len : BitVec 16) : (openChunk len s).len = len := rfl
@[simp] theorem openChunk_pos (len : BitVec 16) : (openChunk len s).pos = 0 := rfl
@[simp] theorem openChunk_out (len : BitVec 16) : (openChunk len s).out = [] := rfl
@[simp] theorem openChunk_pending (len : BitVec 16) : (openChunk len s).pending = s.pending := rfl
@[simp] theorem openChunk_delivered (len : BitVec 16) : (openChunk len s).delivered = s.delivered := rfl

/-! ## closeChunk -/

@[simp] theorem closeChunk_mode : (closeChunk s).mode = s.mode := rfl
@[simp] theorem closeChunk_strict : (closeChunk s).strict = s.strict := rfl
@[simp] theorem closeChunk_token : (closeChunk s).token = s.token := rfl
@[simp] theorem closeChunk_rate : (closeChunk s).rate = s.rate := rfl
@[simp] theorem closeChunk_lock : (closeChunk s).lock = s.lock := rfl
@[simp] theorem closeChunk_mfcnt : (closeChunk s).mfcnt = s.mfcnt := rfl
@[simp] theorem closeChunk_cb : (closeChunk s).cb = [] := rfl
@[simp] theorem closeChunk_len : (closeChunk s).len = 0 := rfl
@[simp] theorem closeChunk_pos : (closeChunk s).pos = 0 := rfl
@[simp] theorem closeChunk_out : (closeChunk s).out = [] := rfl
@[simp] theorem closeChunk_pending : (closeChunk s).pending = s.pending := rfl
@[simp] theorem closeChunk_delivered : (closeChunk s).delivered = s.delivered := rfl

/-! ## emit -/

@[simp] theorem emit_mode (val : BitVec 16) (mk : BitVec 4) (lane : BitVec 1) :
    (emit val mk lane s).mode = s.mode := rfl
@[simp] theorem emit_strict (val : BitVec 16) (mk : BitVec 4) (lane : BitVec 1) :
    (emit val mk lane s).strict = s.strict := rfl
@[simp] theorem emit_token (val : BitVec 16) (mk : BitVec 4) (lane : BitVec 1) :
    (emit val mk lane s).token = s.token := rfl
@[simp] theorem emit_rate (val : BitVec 16) (mk : BitVec 4) (lane : BitVec 1) :
    (emit val mk lane s).rate = s.rate := rfl
@[simp] theorem emit_lock (val : BitVec 16) (mk : BitVec 4) (lane : BitVec 1) :
    (emit val mk lane s).lock = s.lock := rfl
@[simp] theorem emit_mfcnt (val : BitVec 16) (mk : BitVec 4) (lane : BitVec 1) :
    (emit val mk lane s).mfcnt = s.mfcnt := rfl
@[simp] theorem emit_cb (val : BitVec 16) (mk : BitVec 4) (lane : BitVec 1) :
    (emit val mk lane s).cb = s.cb := rfl
@[simp] theorem emit_len (val : BitVec 16) (mk : BitVec 4) (lane : BitVec 1) :
    (emit val mk lane s).len = s.len := rfl
@[simp] theorem emit_pos (val : BitVec 16) (mk : BitVec 4) (lane : BitVec 1) :
    (emit val mk lane s).pos = s.pos := rfl
@[simp] theorem emit_out (val : BitVec 16) (mk : BitVec 4) (lane : BitVec 1) :
    (emit val mk lane s).out = s.out ++ [{ lane := lane, marker := mk, val := val }] := rfl
@[simp] theorem emit_pending (val : BitVec 16) (mk : BitVec 4) (lane : BitVec 1) :
    (emit val mk lane s).pending = s.pending := rfl
@[simp] theorem emit_delivered (val : BitVec 16) (mk : BitVec 4) (lane : BitVec 1) :
    (emit val mk lane s).delivered = s.delivered := rfl

/-! ## advance -/

@[simp] theorem advance_mode (n : Nat) : (advance n s).mode = s.mode := rfl
@[simp] theorem advance_strict (n : Nat) : (advance n s).strict = s.strict := rfl
@[simp] theorem advance_token (n : Nat) : (advance n s).token = s.token := rfl
@[simp] theorem advance_rate (n : Nat) : (advance n s).rate = s.rate := rfl
@[simp] theorem advance_lock (n : Nat) : (advance n s).lock = s.lock := rfl
@[simp] theorem advance_mfcnt (n : Nat) : (advance n s).mfcnt = s.mfcnt := rfl
@[simp] theorem advance_cb (n : Nat) : (advance n s).cb = s.cb := rfl
@[simp] theorem advance_len (n : Nat) : (advance n s).len = s.len := rfl
@[simp] theorem advance_pos (n : Nat) : (advance n s).pos = s.pos + BitVec.ofNat 17 n := rfl
@[simp] theorem advance_out (n : Nat) : (advance n s).out = s.out := rfl
@[simp] theorem advance_pending (n : Nat) : (advance n s).pending = s.pending := rfl
@[simp] theorem advance_delivered (n : Nat) : (advance n s).delivered = s.delivered := rfl

/-! ## deliverRecords -/

@[simp] theorem deliverRecords_mode : (deliverRecords s).mode = s.mode := rfl
@[simp] theorem deliverRecords_strict : (deliverRecords s).strict = s.strict := rfl
@[simp] theorem deliverRecords_token : (deliverRecords s).token = s.token := rfl
@[simp] theorem deliverRecords_rate : (deliverRecords s).rate = s.rate := rfl
@[simp] theorem deliverRecords_lock : (deliverRecords s).lock = s.lock := rfl
@[simp] theorem deliverRecords_mfcnt : (deliverRecords s).mfcnt = s.mfcnt := rfl
@[simp] theorem deliverRecords_cb : (deliverRecords s).cb = s.cb := rfl
@[simp] theorem deliverRecords_len : (deliverRecords s).len = s.len := rfl
@[simp] theorem deliverRecords_pos : (deliverRecords s).pos = s.pos := rfl
@[simp] theorem deliverRecords_out : (deliverRecords s).out = s.out := rfl
@[simp] theorem deliverRecords_pending : (deliverRecords s).pending = s.pending := rfl
@[simp] theorem deliverRecords_delivered :
    (deliverRecords s).delivered = s.delivered ++ s.out.map fun r => .sample (recordWord r) := rfl

/-! ## resetRegisters -/

@[simp] theorem resetRegisters_mode : (resetRegisters s).mode = .oneLow := rfl
@[simp] theorem resetRegisters_strict : (resetRegisters s).strict = false := rfl
@[simp] theorem resetRegisters_token : (resetRegisters s).token = 0 := rfl
@[simp] theorem resetRegisters_rate : (resetRegisters s).rate = 0 := rfl
@[simp] theorem resetRegisters_lock : (resetRegisters s).lock = false := rfl
@[simp] theorem resetRegisters_mfcnt : (resetRegisters s).mfcnt = 0 := rfl
@[simp] theorem resetRegisters_cb : (resetRegisters s).cb = s.cb := rfl
@[simp] theorem resetRegisters_len : (resetRegisters s).len = s.len := rfl
@[simp] theorem resetRegisters_pos : (resetRegisters s).pos = s.pos := rfl
@[simp] theorem resetRegisters_out : (resetRegisters s).out = s.out := rfl
@[simp] theorem resetRegisters_pending : (resetRegisters s).pending = s.pending := rfl
@[simp] theorem resetRegisters_delivered : (resetRegisters s).delivered = s.delivered := rfl

/-! ## withPending -/

@[simp] theorem withPending_mode (rest : List HostMove) : (withPending rest s).mode = s.mode := rfl
@[simp] theorem withPending_strict (rest : List HostMove) : (withPending rest s).strict = s.strict := rfl
@[simp] theorem withPending_token (rest : List HostMove) : (withPending rest s).token = s.token := rfl
@[simp] theorem withPending_rate (rest : List HostMove) : (withPending rest s).rate = s.rate := rfl
@[simp] theorem withPending_lock (rest : List HostMove) : (withPending rest s).lock = s.lock := rfl
@[simp] theorem withPending_mfcnt (rest : List HostMove) : (withPending rest s).mfcnt = s.mfcnt := rfl
@[simp] theorem withPending_cb (rest : List HostMove) : (withPending rest s).cb = s.cb := rfl
@[simp] theorem withPending_len (rest : List HostMove) : (withPending rest s).len = s.len := rfl
@[simp] theorem withPending_pos (rest : List HostMove) : (withPending rest s).pos = s.pos := rfl
@[simp] theorem withPending_out (rest : List HostMove) : (withPending rest s).out = s.out := rfl
@[simp] theorem withPending_pending (rest : List HostMove) : (withPending rest s).pending = rest := rfl
@[simp] theorem withPending_delivered (rest : List HostMove) :
    (withPending rest s).delivered = s.delivered := rfl

/-! ## presentChunk -/

@[simp] theorem presentChunk_mode (op : BitVec 4) (chunk : List Byte) :
    (presentChunk op chunk s).mode = s.mode := rfl
@[simp] theorem presentChunk_strict (op : BitVec 4) (chunk : List Byte) :
    (presentChunk op chunk s).strict = s.strict := rfl
@[simp] theorem presentChunk_token (op : BitVec 4) (chunk : List Byte) :
    (presentChunk op chunk s).token = s.token := rfl
@[simp] theorem presentChunk_rate (op : BitVec 4) (chunk : List Byte) :
    (presentChunk op chunk s).rate = s.rate := rfl
@[simp] theorem presentChunk_lock (op : BitVec 4) (chunk : List Byte) :
    (presentChunk op chunk s).lock = s.lock := rfl
@[simp] theorem presentChunk_mfcnt (op : BitVec 4) (chunk : List Byte) :
    (presentChunk op chunk s).mfcnt = s.mfcnt := rfl
@[simp] theorem presentChunk_cb (op : BitVec 4) (chunk : List Byte) :
    (presentChunk op chunk s).cb = if op = 0x4 then Memory.ofBytes chunk else s.cb := rfl
@[simp] theorem presentChunk_len (op : BitVec 4) (chunk : List Byte) :
    (presentChunk op chunk s).len = s.len := rfl
@[simp] theorem presentChunk_pos (op : BitVec 4) (chunk : List Byte) :
    (presentChunk op chunk s).pos = s.pos := rfl
@[simp] theorem presentChunk_out (op : BitVec 4) (chunk : List Byte) :
    (presentChunk op chunk s).out = s.out := rfl
@[simp] theorem presentChunk_pending (op : BitVec 4) (chunk : List Byte) :
    (presentChunk op chunk s).pending = s.pending := rfl
@[simp] theorem presentChunk_delivered (op : BitVec 4) (chunk : List Byte) :
    (presentChunk op chunk s).delivered = s.delivered := rfl

end Sys2Proof.Machine
end

