-- ==== Sys2Proof/Laws/Memory.lean ====
section
/-!
SUPPORT. The chunk buffer: filling it keeps the canonical form, and what is read back is what was filled in.
-/

namespace Sys2Proof.Machine

theorem Memory.fillFrom_wf (a : Nat) (bs : List Byte) : (Memory.fillFrom a bs).wf = true := by
  induction bs generalizing a with
  | nil => rfl
  | cons b bs ih =>
    cases bs with
    | nil => rfl
    | cons c cs => simpa [Memory.fillFrom, Memory.wf] using ih (a + 1)

/-- The host's filling of CB is canonical (20_memory.md rule R30). -/
theorem Memory.ofBytes_wf (bs : List Byte) : (Memory.ofBytes bs).wf = true := Memory.fillFrom_wf 0 bs

/-- CB at reset, and after every DECODE, is canonical. -/
theorem Memory.empty_wf : Memory.wf [] = true := rfl

/-- Presenting a chunk keeps the canonical form. -/
theorem presentChunk_wf (op : BitVec 4) (chunk : List Byte) (s : State) (h : s.cb.wf = true) :
    (presentChunk op chunk s).cb.wf = true := by
  rw [presentChunk_cb]
  split
  · exact Memory.ofBytes_wf chunk
  · exact h

theorem Memory.map_fst_fillFrom (a : Nat) (bs : List Byte) :
    (Memory.fillFrom a bs).map Prod.fst = List.range' a bs.length := by
  induction bs generalizing a with
  | nil => rfl
  | cons b bs ih => simp [Memory.fillFrom, ih, List.range'_succ]

/-- The host's filling of CB holds exactly the bytes it was given. -/
@[simp] theorem Memory.holdsExactly_ofBytes (bs : List Byte) (n : Nat) :
    (Memory.ofBytes bs).holdsExactly n = decide (bs.length = n) := by
  have hne : (List.range bs.length = List.range n) ↔ bs.length = n :=
    ⟨fun h => by simpa using congrArg List.length h, fun h => by rw [h]⟩
  rw [Memory.holdsExactly, Memory.ofBytes, Memory.map_fst_fillFrom, ← List.range_eq_range']
  rw [beq_eq_decide]
  exact decide_eq_decide.mpr hne

theorem Memory.fillFrom_of_map_fst (m : Memory) (a : Nat)
    (h : m.map Prod.fst = List.range' a m.length) : Memory.fillFrom a (m.map Prod.snd) = m := by
  induction m generalizing a with
  | nil => rfl
  | cons c m ih =>
    obtain ⟨k, b⟩ := c
    simp only [List.map_cons, List.length_cons, List.range'_succ, List.cons.injEq] at h
    simp [Memory.fillFrom, h.1, ih _ h.2]

/-- A buffer that holds exactly `n` bytes is the host's filling with `n` bytes. -/
theorem Memory.eq_ofBytes_of_holdsExactly {m : Memory} {n : Nat} (h : m.holdsExactly n = true) :
    ∃ bs : List Byte, bs.length = n ∧ m = Memory.ofBytes bs := by
  have h' : m.map Prod.fst = List.range n := by simpa [Memory.holdsExactly] using h
  have hl : m.length = n := by simpa using congrArg List.length h'
  refine ⟨m.map Prod.snd, by simpa using hl, ?_⟩
  rw [Memory.ofBytes, Memory.fillFrom_of_map_fst]
  rw [h', hl, List.range_eq_range']

theorem Memory.read_fillFrom (a k : Nat) (bs : List Byte) :
    (Memory.fillFrom a bs).read (a + k) = bs[k]? := by
  induction bs generalizing a k with
  | nil => rfl
  | cons b bs ih =>
    cases k with
    | zero => simp [Memory.fillFrom, Memory.read]
    | succ k =>
      have hk : a + (k + 1) = a + 1 + k := by omega
      simp only [Memory.fillFrom, Memory.read, List.getElem?_cons_succ]
      rw [if_neg (by omega), hk, ih]

/-- `MemRead(addr, 1)` of a filled buffer is the byte the host put there (20_memory.md rule R33). -/
@[simp] theorem Memory.read_ofBytes (bs : List Byte) (k : Nat) :
    (Memory.ofBytes bs).read k = bs[k]? := by
  simpa [Memory.ofBytes] using Memory.read_fillFrom 0 k bs

/-- `MemRead(addr, 2)` of a filled buffer (20_memory.md rule R33). -/
theorem Memory.readWord_ofBytes {bs : List Byte} {a : Nat} {lo hi : Byte} (hlo : bs[a]? = some lo)
    (hhi : bs[a + 1]? = some hi) : (Memory.ofBytes bs).readWord a = some (leWord lo hi) := by
  simp [Memory.readWord, hlo, hhi]

/-- A word read depends only on the word's two bytes. -/
theorem Memory.readWord_congr {m m' : Memory} {a : Nat} (hlo : m.read a = m'.read a)
    (hhi : m.read (a + 1) = m'.read (a + 1)) : m.readWord a = m'.readWord a := by
  rw [Memory.readWord, Memory.readWord, hlo, hhi]

end Sys2Proof.Machine
end

