-- ==== Sys2Proof/Laws/Ops.lean ====
section
/-!
SUPPORT. For each shared operation, once, everything it can do: raising an error, running one frame unit, the
decode loop, and DECODE as a whole. Later proofs cite these and do not unfold the operations.
-/

namespace Sys2Proof.Machine

/-! ## Raising an error (60_exceptions.md rule R110) -/

variable (e : BlockError) (s : State)

@[simp] theorem raise_mode : (raise e s).mode = s.mode := by cases e <;> rfl
@[simp] theorem raise_strict : (raise e s).strict = s.strict := by cases e <;> rfl
@[simp] theorem raise_token : (raise e s).token = s.token := by cases e <;> rfl
@[simp] theorem raise_rate : (raise e s).rate = s.rate := by cases e <;> rfl
@[simp] theorem raise_cb : (raise e s).cb = s.cb := by cases e <;> rfl
@[simp] theorem raise_len : (raise e s).len = s.len := by cases e <;> rfl
@[simp] theorem raise_pos : (raise e s).pos = s.pos := by cases e <;> rfl
@[simp] theorem raise_out : (raise e s).out = s.out := by cases e <;> rfl
@[simp] theorem raise_pending : (raise e s).pending = s.pending := by cases e <;> rfl
@[simp] theorem raise_delivered :
    (raise e s).delivered = s.delivered ++ [.response (responseWord (errorCode e) (errorInfo e))] := by
  cases e <;> rfl

/-- Every error but MalformedFrame only delivers its response. -/
theorem raise_eq_respond (he : errorCode e ≠ .malformedFrame) :
    raise e s = respond (errorCode e) (errorInfo e) s := by
  cases e <;> first | rfl | exact absurd rfl he

/-- MalformedFrame, of either cause, also sets LOCK and counts. -/
theorem raise_eq_of_malformed (he : errorCode e = .malformedFrame) :
    raise e s = respond .malformedFrame (errorInfo e) (countMalformed (setLock s)) := by
  cases e <;> first | rfl | cases he

/-- The response to an error never has the code of OK. -/
theorem errorCode_ne_ok : errorCode e ≠ .ok := by cases e <;> decide

/-! ## One frame unit (42_decode.md rules R90 to R93) -/

/-- The records a unit emits at `pos`. -/
def unitRecords : UnitRead → BitVec 17 → List Record
  | .byte1L v, _ => [{ lane := 0, marker := 0, val := valOfByte v }]
  | .word1H v m, _ => [{ lane := 0, marker := mkOfWord (wordOf v m), val := valOfWord (wordOf v m) }]
  | .pair2L a b, _ =>
    [{ lane := 0, marker := 0, val := valOfByte a }, { lane := 1, marker := 0, val := valOfByte b }]
  | .word2H v m, p =>
    [{ lane := laneOfPos p, marker := mkOfWord (wordOf v m), val := valOfWord (wordOf v m) }]

/-- The mode a unit belongs to. -/
def unitMode : UnitRead → Mode
  | .byte1L _ => .oneLow
  | .word1H _ _ => .oneHigh
  | .pair2L _ _ => .twoLow
  | .word2H _ _ => .twoHigh

/-- A unit always completes: it appends its records and advances by its size. -/
theorem runUnit_eq (u : UnitRead) :
    runUnit u s = .next { s with
      out := s.out ++ unitRecords u s.pos
      pos := s.pos + BitVec.ofNat 17 (unitSize (unitMode u)) } := by
  cases u <;>
    simp [runUnit, execUnit1L, execUnit1H, emitPair, execUnit2H, emit, advance, unitRecords, unitMode]

/-- What a pass reads of a frame unit. -/
def readOf : FrameUnit → UnitRead
  | .byte1L v => .byte1L v
  | .word1H v m => .word1H v m
  | .quad2L _ _ a b => .pair2L a b
  | .word2H v m => .word2H v m

/-- What a pass does is what the unit's opcode-table row does. -/
theorem exec_toInstr (u : FrameUnit) : exec u.toInstr s = runUnit (readOf u) s := by cases u <;> rfl

/-- As many bytes as the mode's unit size always decode (30_encoding.md rule R49). -/
theorem decodeUnit_of_length {m : Mode} {bs : List Byte} (h : bs.length = unitSize m) :
    ∃ u, decodeUnit m bs = .ok u ∧ unitMode (readOf u) = m := by
  cases m <;> simp only [unitSize] at h
  · obtain ⟨b, rfl⟩ := List.length_eq_one_iff.mp h
    exact ⟨_, rfl, rfl⟩
  · obtain ⟨b, c, rfl⟩ := List.length_eq_two.mp h
    exact ⟨_, rfl, rfl⟩
  · match bs, h with
    | [_, _, _, _], _ => exact ⟨_, rfl, rfl⟩
  · obtain ⟨b, c, rfl⟩ := List.length_eq_two.mp h
    exact ⟨_, rfl, rfl⟩

/-- The fetch reads, of the unit at `pos`, what the bytes there decode to. -/
theorem fetchUnit_of_read {s : State} {bs : List Byte} {u : FrameUnit}
    (hread : ∀ k, k < unitSize s.mode → Memory.read s.cb (s.pos.toNat + k) = bs[k]?)
    (hu : decodeUnit s.mode bs = .ok u) : fetchUnit s = some (readOf u) := by
  unfold fetchUnit Memory.readWord
  unfold decodeUnit at hu
  split at hu <;> cases hu
  all_goals
    rename_i hm
    rw [hm] at hread ⊢
    have h0 := hread 0 (by decide)
  · simp_all [readOf]
  · have h1 := hread 1 (by decide)
    simp_all [readOf]
  · have h2 := hread 2 (by decide)
    have h3 := hread 3 (by decide)
    simp_all [readOf]
  · have h1 := hread 1 (by decide)
    simp_all [readOf]

/-- In 2L the fetch depends on the two sample bytes alone (20_memory.md rule R37, 70_reset_and_hazards.md rule
R122). -/
theorem fetchUnit_twoLow_congr {s s' : State} (hm : s.mode = .twoLow) (hm' : s'.mode = .twoLow)
    (hp : s.pos = s'.pos) (ha : Memory.read s.cb (s.pos.toNat + 2) = Memory.read s'.cb (s.pos.toNat + 2))
    (hb : Memory.read s.cb (s.pos.toNat + 3) = Memory.read s'.cb (s.pos.toNat + 3)) :
    fetchUnit s = fetchUnit s' := by
  simp only [fetchUnit, hm, hm', ← hp, ha, hb]

/-- The token pass depends on the token bytes alone (70_reset_and_hazards.md rule R122). -/
theorem tokensMatch_congr {token : Byte} {m m' : Memory} {len : BitVec 16}
    (h : ∀ q, Memory.read m (4 * q) = Memory.read m' (4 * q)) :
    tokensMatch token m len = tokensMatch token m' len := by
  simp only [tokensMatch, h]

/-! ## The decode loop (42_decode.md rules R84 and R89) -/

/-- One pass of the loop. -/
theorem unitLoop_succ {n : Nat} {s : State} {u : UnitRead} (hpos : s.pos.toNat ≠ s.len.toNat)
    (hu : fetchUnit s = some u) :
    unitLoop (n + 1) s = unitLoop n { s with
      out := s.out ++ unitRecords u s.pos
      pos := s.pos + BitVec.ofNat 17 (unitSize (unitMode u)) } := by
  rw [unitLoop, if_neg hpos, hu]
  simp only [runUnit_eq]

/-- Whatever the loop does, it changes only `out`, by appending, and `pos`. -/
theorem unitLoop_next {n : Nat} {s s' : State} (h : unitLoop n s = .next s') :
    ∃ recs p, s' = { s with out := s.out ++ recs, pos := p } := by
  induction n generalizing s with
  | zero =>
    cases h
    exact ⟨[], s'.pos, by simp⟩
  | succ n ih =>
    rw [unitLoop] at h
    split at h
    · cases h
      exact ⟨[], s'.pos, by simp⟩
    · cases hu : fetchUnit s with
      | none => simp [hu] at h
      | some u =>
        simp only [hu, runUnit_eq] at h
        obtain ⟨recs, p, rfl⟩ := ih h
        exact ⟨unitRecords u s.pos ++ recs, p, by simp⟩

/-- The loop never refuses. -/
theorem unitLoop_not_refused (n : Nat) (s : State) (r : Refusal) : unitLoop n s ≠ .refused r := by
  induction n generalizing s with
  | zero => simp [unitLoop]
  | succ n ih =>
    rw [unitLoop]
    split
    · simp
    · cases fetchUnit s with
      | none => simp
      | some u => simpa only [runUnit_eq] using ih _

/-- Where a chunk holds a whole unit at `pos`, the loop's fetch finds it. -/
theorem fetchUnit_ofBytes {s : State} {bs : List Byte} (hcb : s.cb = Memory.ofBytes bs)
    (hfit : s.pos.toNat + unitSize s.mode ≤ bs.length) :
    ∃ u, decodeUnit s.mode ((bs.drop s.pos.toNat).take (unitSize s.mode)) = .ok u ∧
      fetchUnit s = some (readOf u) ∧ unitMode (readOf u) = s.mode := by
  have hlen : ((bs.drop s.pos.toNat).take (unitSize s.mode)).length = unitSize s.mode := by
    simp; omega
  obtain ⟨u, hu, hm⟩ := decodeUnit_of_length hlen
  refine ⟨u, hu, fetchUnit_of_read (fun k hk => ?_) hu, hm⟩
  rw [hcb, Memory.read_ofBytes, List.getElem?_take_of_lt hk, List.getElem?_drop]

/-! ## DECODE (42_decode.md rule R82) -/

/-- Everything DECODE can answer with a next state: one of the two MalformedFrame outcomes, or the records the
loop has built. -/
theorem execDecode_cases {len : BitVec 16} {s t : State} (h : execDecode len s = .next t) :
    s.cb.holdsExactly len.toNat = true ∧
    ((lengthOk s.mode len = false ∧ t = closeChunk (raise .malformedLength (setLock s))) ∨
     (lengthOk s.mode len = true ∧ tokenMismatch s len = true ∧
        t = closeChunk (raise .malformedToken (setLock s))) ∨
     (lengthOk s.mode len = true ∧ tokenMismatch s len = false ∧
        ∃ recs p, unitLoop (len.toNat / unitSize s.mode) (openChunk len (setLock s)) =
            .next { openChunk len (setLock s) with out := recs, pos := p } ∧
          t = completeDecode { openChunk len (setLock s) with out := recs, pos := p })) := by
  unfold execDecode decodeChunk at h
  split at h
  · rename_i hcb
    refine ⟨hcb, ?_⟩
    have htm : tokenMismatch (setLock s) len = tokenMismatch s len := rfl
    simp only [setLock_mode, htm] at h
    split at h
    · exact .inl ⟨by assumption, by cases h; rfl⟩
    · rename_i hl
      have hl' : lengthOk s.mode len = true := by simpa using hl
      split at h
      · exact .inr (.inl ⟨hl', by assumption, by cases h; rfl⟩)
      · rename_i ht
        refine .inr (.inr ⟨hl', by simpa using ht, ?_⟩)
        split at h
        · rename_i s' hs
          obtain ⟨recs, p, rfl⟩ := unitLoop_next hs
          cases h
          exact ⟨recs, p, by simpa using hs, by simp⟩
        · cases h
        · cases h
  · cases h

end Sys2Proof.Machine
end

