-- ==== Sys2Proof/Laws/PerInstr.lean ====
section
/-!
SUPPORT. The statements made per instruction. TableRow: the encoding of a well-formed instruction has the fixed
part of its row of spec/opcode_table.json (the `op` field of a command word; the selector mode and the width of a
frame unit).
-/

namespace Sys2Proof.Laws.TableRow

open Sys2Proof

/-- The fixed part of a row: the operation codes it covers, or the selector mode and width in bytes. -/
inductive Row where
  | command (ops : List Nat)
  | unit (selector : Mode) (bytes : Nat)

/-- The rows of spec/opcode_table.json. -/
def row : Instr → Row
  | .nop => .command [0x0]
  | .wr _ _ => .command [0x1]
  | .rd _ => .command [0x2]
  | .tick => .command [0x3]
  | .decode _ => .command [0x4]
  | .rst => .command [0x5]
  | .reserved67 _ => .command [0x6, 0x7]
  | .reserved8F _ => .command [0x8, 0x9, 0xA, 0xB, 0xC, 0xD, 0xE, 0xF]
  | .unit1L _ => .unit .oneLow 1
  | .unit1H _ _ => .unit .oneHigh 2
  | .unit2L _ _ _ _ => .unit .twoLow 4
  | .unit2H _ _ => .unit .twoHigh 2

/-- An encoding has a row's fixed part. -/
def fits : Row → Encoding → Prop
  | .command ops, .command cw => (opField cw).toNat ∈ ops
  | .unit selector bytes, .unit mode bs => mode = selector ∧ bs.length = bytes
  | .command _, .unit _ _ => False
  | .unit _ _, .command _ => False

/-- The encoding of a well-formed instruction has its row's fixed part. -/
def Statement (i : Instr) : Prop := i.wellFormed = true → fits (row i) (encode i)

theorem nop : Statement .nop := fun _ => by simp [row, encode, fits]

theorem wr (addr : BitVec 4) (data : BitVec 32) : Statement (.wr addr data) :=
  fun _ => by simp [row, encode, fits]

theorem rd (addr : BitVec 4) : Statement (.rd addr) := fun _ => by simp [row, encode, fits]

theorem tick : Statement .tick := fun _ => by simp [row, encode, fits]

theorem decode (len : BitVec 16) : Statement (.decode len) := fun _ => by simp [row, encode, fits]

theorem rst : Statement .rst := fun _ => by simp [row, encode, fits]

theorem reserved67 (op : BitVec 4) : Statement (.reserved67 op) := fun h => by
  simp only [row, encode, fits, opField_commandWord]
  revert h op
  decide

theorem reserved8F (op : BitVec 4) : Statement (.reserved8F op) := fun h => by
  simp only [row, encode, fits, opField_commandWord]
  revert h op
  decide

theorem unit1L (sample : Byte) : Statement (.unit1L sample) := fun _ => ⟨rfl, rfl⟩

theorem unit1H (sample : BitVec 12) (marker : BitVec 4) : Statement (.unit1H sample marker) :=
  fun _ => ⟨rfl, rfl⟩

theorem unit2L (token count chanA chanB : Byte) : Statement (.unit2L token count chanA chanB) :=
  fun _ => ⟨rfl, rfl⟩

theorem unit2H (sample : BitVec 12) (marker : BitVec 4) : Statement (.unit2H sample marker) :=
  fun _ => ⟨rfl, rfl⟩

end Sys2Proof.Laws.TableRow
end

