-- ==== Sys2Proof/Laws/Step.lean ====
section
/-!
SUPPORT. What one step can do, said once, and what the port operations leave alone.
-/

namespace Sys2Proof.Machine

/-- Everything a step can answer with a next state: the block waits, resets, or carries out one command word. -/
theorem step_cases {s t : State} (h : step s = .next t) :
    (s.pending = [] ∧ t = s) ∨
    (∃ rest, s.pending = .reset :: rest ∧ t = takeReset rest s) ∨
    (∃ cw chunk rest, s.pending = .command cw chunk :: rest ∧
      exec (decodeCommand cw) (takeCommand cw chunk rest s) = .next t) := by
  unfold step at h
  split at h
  · exact .inl ⟨by assumption, by cases h; rfl⟩
  · exact .inr (.inl ⟨_, by assumption, by cases h; rfl⟩)
  · exact .inr (.inr ⟨_, _, _, by assumption, h⟩)

/-- Carrying out a command word, as an equation. -/
theorem step_command {s : State} {cw : CommandWord} {chunk : List Byte} {rest : List HostMove}
    (h : s.pending = .command cw chunk :: rest) :
    step s = exec (decodeCommand cw) (takeCommand cw chunk rest s) := by
  rw [step, h]

/-- Taking a command word changes the port and, for a DECODE, presents the chunk; nothing else. -/
theorem takeCommand_eq (cw : CommandWord) (chunk : List Byte) (rest : List HostMove) (s : State) :
    takeCommand cw chunk rest s =
      { s with pending := rest, cb := if opField cw = 0x4 then Memory.ofBytes chunk else s.cb } := rfl

/-- A command word is a DECODE exactly when its `op` is 0x4. -/
theorem decodeCommand_eq_decode_iff (cw : CommandWord) :
    decodeCommand cw = .decode (lenField cw) ↔ opField cw = 0x4 := by
  unfold decodeCommand
  split <;> simp only [reduceCtorEq, true_iff, false_iff] <;> bv_omega

end Sys2Proof.Machine
end

