-- ==== Sys2Proof/Laws/Tick.lean ====
section
/-!
SUPPORT. The tick arithmetic: what the rounding can answer, and what TICK can.
-/

namespace Sys2Proof.Machine

/-- The three cases of `round_nearest` (41_tick.md rule R74). -/
theorem roundNearest_cases (tieUp : Nat → Bool) (n : Nat) :
    (2 * (40000000 % n) < n ∧ roundNearest tieUp n = 40000000 / n) ∨
    (n < 2 * (40000000 % n) ∧ roundNearest tieUp n = 40000000 / n + 1) ∨
    (2 * (40000000 % n) = n ∧ roundNearest tieUp n = 40000000 / n + if tieUp n then 1 else 0) := by
  rcases Nat.lt_trichotomy (2 * (40000000 % n)) n with h | h | h
  · exact .inl ⟨h, if_pos h⟩
  · exact .inr (.inr ⟨h, (if_neg (Nat.not_lt.mpr (Nat.le_of_eq h.symm))).trans
      (if_neg (Nat.not_lt.mpr (Nat.le_of_eq h)))⟩)
  · exact .inr (.inl ⟨h, (if_neg (Nat.lt_asymm h)).trans (if_pos h)⟩)

/-- Everything TICK can answer: ConfigurationRangeError, or OK with a register pair (41_tick.md rule R69). -/
theorem execTick_cases (s : State) :
    (tick Config.tieUp s.rate s.mode = none ∧ execTick s = .next (raise .configurationRange s)) ∨
    ∃ high low, tick Config.tieUp s.rate s.mode = some (high, low) ∧
      execTick s = .next (respond .ok ((0 : BitVec 16) ++ high ++ low) s) := by
  unfold execTick
  rcases tick Config.tieUp s.rate s.mode with _ | ⟨high, low⟩
  · exact .inl ⟨rfl, rfl⟩
  · exact .inr ⟨high, low, rfl, rfl⟩

end Sys2Proof.Machine
end

