-- ==== Sys2Proof/Tests/Slice0.lean ====
section
/-!
SUPPORT. The model's own tests. The expected words, records and states are those of spec/95_test_vectors.md (each
theorem names its vector) or are written out bit by bit from the encodings of spec/30_encoding.md. The last part
shows, for every statement that has hypotheses, values that meet them all.
-/

namespace Sys2Proof.Tests

open Sys2Proof.Machine Sys2Proof.Claims

/-! ## Well-formedness: each check refuses an ill-formed term -/

theorem test_wellFormed_refuses_reserved67 :
    (Instr.reserved67 5).wellFormed = false ∧ (Instr.reserved67 8).wellFormed = false := by decide

theorem test_wellFormed_refuses_reserved8F : (Instr.reserved8F 7).wellFormed = false := by decide

theorem test_dutiful_refuses_short_chunk :
    (HostMove.command 0x4000000003 [0x01, 0x02]).dutiful = false := by decide

/-! ## Decoding: words written out from the encoding tables (rules R44, R45, R53 to R56) -/

theorem test_decode_nop : decodeCommand 0b0000111111011110101011011011111011101111#40 = .nop := by decide

theorem test_decode_wr : decodeCommand 0b0001001000000000000000011000011010100000#40 = .wr 2 100000 := by decide

theorem test_decode_rd : decodeCommand 0b0010001100000000000000000000000000000000#40 = .rd 3 := by decide

theorem test_decode_tick : decodeCommand 0b0011000000000000000000000000000000000000#40 = .tick := by decide

theorem test_decode_decode : decodeCommand 0b0100111110101011110011010000000000000010#40 = .decode 2 := by decide

theorem test_decode_rst : decodeCommand 0b0101000000000000000000000000000000000000#40 = .rst := by decide

theorem test_decode_reserved67 : decodeCommand 0b0110000000000000000000000000000000000000#40 = .reserved67 6 := by
  decide

theorem test_decode_reserved8F : decodeCommand 0b1000000000000000000000000000000000000000#40 = .reserved8F 8 := by
  decide

theorem test_decode_unit1L : decodeUnit .oneLow [0x80] = .ok (.byte1L 0x80) := by rfl

/-- V-D3's third word: bytes `f5 ff`, w = 0xFFF5. -/
theorem test_decode_unit1H : decodeUnit .oneHigh [0xF5, 0xFF] = .ok (.word1H 0xFFF 0x5) := by rfl

theorem test_decode_unit2L : decodeUnit .twoLow [0xA5, 0x01, 0x10, 0x20] = .ok (.quad2L 0xA5 0x01 0x10 0x20) := by
  rfl

/-- V-D13's third word: bytes `3b ff`, w = 0xFF3B. -/
theorem test_decode_unit2H : decodeUnit .twoHigh [0x3B, 0xFF] = .ok (.word2H 0xFF3 0xB) := by rfl

theorem test_decode_partial_quadruple : decodeUnit .twoLow [0xA5, 0x01] = .error (.partialUnit .twoLow) := by rfl

/-! ## One step on a small state -/

/-- The reset state with the host about to issue one command. -/
def issued (s : State) (cw : CommandWord) (chunk : List Byte) : State :=
  { s with pending := [.command cw chunk] }

/-- The state after one step that answers a next state, else the state before it. -/
def stepped (s : State) : State :=
  match step s with
  | .next t => t
  | .fault _ => s
  | .refused _ => s

/-- V-R2. -/
theorem test_nop_ignores_fields :
    stepped (issued State.reset 0x0FDEADBEEF []) =
      { State.reset with delivered := [.response 0x0000000000] } := by decide

/-- V-R4: reserved bits of CFG are dropped. -/
theorem test_wr_cfg_drops_reserved_bits :
    stepped (issued State.reset 0x10FFFFFFF9 []) =
      { State.reset with mode := .oneHigh, delivered := [.response 0x0000000000] } := by decide

/-- V-R13: a read-only register is reported before the lock. -/
theorem test_wr_status_while_locked :
    stepped (issued { State.reset with lock := true } 0x1300000000 []) =
      { State.reset with lock := true, delivered := [.response 0x0400000002] } := by decide

/-- P2 step 10: RD CFG with MODE 2L and STRICT. -/
theorem test_rd_cfg :
    (stepped (issued { State.reset with mode := .twoLow, strict := true } 0x2000000000 [])).delivered =
      [.response 0x0000000006] := by decide

/-- V-R10. -/
theorem test_rd_reserved_register :
    (stepped (issued State.reset 0x2500000000 [])).delivered = [.response 0x0400000001] := by decide

/-- V-T6: 44 100 Hz in mode 1H rounds up. -/
theorem test_tick_rounds_up :
    (stepped (issued { State.reset with mode := .oneHigh, rate := 44100 } 0x3000000000 [])).delivered =
      [.response 0x00000001C6] := by decide

/-- V-T10: a count above 16 bits is an error with data 0. -/
theorem test_tick_range_error :
    (stepped (issued { State.reset with rate := 610 } 0x3000000000 [])).delivered =
      [.response 0x0100000000] := by decide

/-- V-D10: one wrong token rejects the whole chunk. -/
theorem test_decode_strict_mismatch :
    stepped (issued { State.reset with mode := .twoLow, strict := true, token := 0xA5 } 0x4000000008
        [0xA5, 0x01, 0x10, 0x20, 0x5A, 0x02, 0x30, 0x40]) =
      { State.reset with
        mode := .twoLow, strict := true, token := 0xA5, lock := true, mfcnt := 1,
        delivered := [.response 0x0200000001] } := by decide

/-- V-D20: MFCNT saturates. -/
theorem test_decode_counter_saturates :
    (stepped (issued { State.reset with mode := .oneHigh, mfcnt := 0xFFFFFFFF } 0x4000000003
        [0x01, 0x02, 0x03])).mfcnt = 0xFFFFFFFF := by decide

/-- V-R14. -/
theorem test_rst :
    stepped (issued { State.reset with mode := .oneHigh, rate := 100000, lock := true, mfcnt := 3 }
        0x5000000000 []) =
      { State.reset with delivered := [.response 0x0000000000] } := by decide

/-- V-R11. -/
theorem test_reserved67 :
    stepped (issued State.reset 0x6000000000 []) =
      { State.reset with delivered := [.response 0x0400000000] } := by decide

/-- V-R11. -/
theorem test_reserved8F :
    stepped (issued State.reset 0xF000000000 []) =
      { State.reset with delivered := [.response 0x0400000000] } := by decide

/-- V-D1: no sign extension. -/
theorem test_unit1L :
    (stepped (issued State.reset 0x4000000004 [0x00, 0x7F, 0x80, 0xFF])).delivered =
      [.sample 0x000000, .sample 0x00007F, .sample 0x000080, .sample 0x0000FF, .response 0x0000000004] := by
  decide

/-- V-D3. -/
theorem test_unit1H :
    (stepped (issued { State.reset with mode := .oneHigh } 0x4000000008
        [0xC8, 0x00, 0x0F, 0x80, 0xF5, 0xFF, 0xFF, 0x7F])).delivered =
      [.sample 0x0800C0, .sample 0x0F8000, .sample 0x05FFF0, .sample 0x0F7FF0, .response 0x0000000004] := by
  decide

/-- V-D12: without STRICT no token is looked at. -/
theorem test_unit2L :
    (stepped (issued { State.reset with mode := .twoLow, token := 0xA5 } 0x4000000008
        [0xA5, 0x01, 0x10, 0x20, 0x5A, 0x02, 0x30, 0x40])).delivered =
      [.sample 0x000010, .sample 0x100020, .sample 0x000030, .sample 0x100040, .response 0x0000000004] := by
  decide

/-- V-D13. -/
theorem test_unit2H :
    (stepped (issued { State.reset with mode := .twoHigh } 0x4000000006
        [0x13, 0x00, 0x27, 0x00, 0x3B, 0xFF])).delivered =
      [.sample 0x030010, .sample 0x170020, .sample 0x0BFF30, .response 0x0000000003] := by decide

/-! ## The host's words -/

theorem test_table_word_units :
    decodeTableWord 8 0x7F = some (.unit1L 0x7F) ∧ decodeTableWord 16 0xFFF5 = some (.unit1H 0xFFF 0x5) ∧
    decodeTableWord 32 0x201001A5 = some (.unit2L 0xA5 0x01 0x10 0x20) ∧ decodeTableWord 24 0 = none := by decide

theorem test_fetch_word_runs_command :
    (stepped (State.reset.withFetchWord 40 0x3000000000)).delivered = [.response 0x0100000000] := by decide

theorem test_fetch_word_runs_decode_of_zeros :
    (stepped (State.reset.withFetchWord 40 0x4000000002)).delivered =
      [.sample 0, .sample 0, .response 0x0000000002] := by decide

theorem test_fetch_word_runs_units :
    (stepped (State.reset.withFetchWord 8 0x7F)).delivered = [.sample 0x00007F, .response 0x0000000001] ∧
    (stepped (State.reset.withFetchWord 16 0xFFF5)).delivered = [.sample 0x05FFF0, .response 0x0000000001] ∧
    (stepped (State.reset.withFetchWord 32 0x201001A5)).delivered =
      [.sample 0x000010, .sample 0x100020, .response 0x0000000002] ∧
    (stepped ({ State.reset with mode := .twoHigh }.withFetchWord 16 0xFF3B)).delivered =
      [.sample 0x0BFF30, .response 0x0000000001] := by decide

/-- P1 line 2, P2 line 1 and P2 line 5. -/
theorem test_assemble :
    assemble (.setRate 100000) = .command 0x12000186A0 [] ∧
    assemble (.setMode .twoLow true) = .command 0x1000000006 [] ∧
    assemble (.decode [0xA5, 0x01, 0x10, 0x20]) = .command 0x4000000004 [0xA5, 0x01, 0x10, 0x20] := by decide

/-! ## Witnesses: values that meet the hypotheses of each statement -/

/-- A state whose chunk buffer holds the bytes. -/
def holding (mode : Mode) (bytes : List Byte) : State :=
  { State.reset with mode := mode, cb := Memory.ofBytes bytes }

/-- The longest chunk, 65535 zero bytes. -/
def longest : List Byte := List.replicate 65535 0

theorem longest_length : longest.length = 65535 := List.length_replicate

theorem test_witness_AssemblerLinesStandForTheListedWords :
    (∀ chunk, AsmLine.nop ≠ .decode chunk) ∧ longest.length < 65536 :=
  ⟨fun _ => by simp, by rw [longest_length]; decide⟩

theorem test_witness_DecodeInvertsEncode :
    Instr.nop.wellFormed = true ∧ (Instr.reserved67 6).wellFormed = true ∧
    (Instr.reserved67 7).wellFormed = true ∧ (Instr.reserved8F 8).wellFormed = true ∧
    (Instr.reserved8F 15).wellFormed = true := by decide

theorem test_witness_OperationCodeSelectsOperation :
    (0x6 : BitVec 4) ≠ 0x7 ∧ 0x8 ≤ (0x8 : BitVec 4).toNat ∧ 0x8 ≤ (0xF : BitVec 4).toNat := by decide

theorem test_witness_IgnoredFieldsChangeNothing :
    (0x0FDEADBEEF : CommandWord) &&& usedBits 0x0FDEADBEEF = 0x0000000000 &&& usedBits 0x0000000000 ∧
    (0x4FABCD0002 : CommandWord) &&& usedBits 0x4FABCD0002 = 0x4000000002 &&& usedBits 0x4000000002 := by decide

theorem test_witness_PartialUnitsRejected :
    ([0xA5, 0x01, 0x10] : List Byte).length < unitBytes .twoLow ∧
    unitBytes .twoLow < ([0, 0, 0, 0, 0] : List Byte).length ∧
    ([0, 0, 0, 0] : List Byte).length = unitBytes .twoLow := by decide

theorem test_witness_StepRunsTheDecodedCommand :
    (issued State.reset 0x3000000000 []).pending = .command 0x3000000000 [] :: [] ∧
    (issued State.reset 0x4000000001 [0x42]).pending = .command 0x4000000001 [0x42] :: [] := by decide

theorem test_witness_DecodeLoopRunsTheUnitAtPos :
    let s : State := { holding .oneHigh [0xC8, 0x00, 0xF5, 0xFF] with len := 4, pos := 2 }
    s.pos.toNat ≠ s.len.toNat ∧
    (∀ k, k < unitBytes s.mode → Memory.read s.cb (s.pos.toNat + k) = ([0xF5, 0xFF] : List Byte)[k]?) ∧
    decode (.unit s.mode [0xF5, 0xFF]) = .ok (.unit1H 0xFFF 0x5) := ⟨by decide, by decide, rfl⟩

theorem test_witness_ResetInputResetsEveryRegister :
    { State.reset with pending := [.reset] }.pending = .reset :: [] := by decide

theorem test_witness_StepWaitsForACommand : State.reset.pending = [] := by decide

theorem test_witness_UsableStraightAfterReset :
    ([] : List Byte).length < 65536 ∧ longest.length < 65536 ∧
    (0 : BitVec 4).toNat < 5 ∧ (4 : BitVec 4).toNat < 5 := by
  rw [longest_length]; decide

theorem test_witness_WrChecksThenWrites :
    5 ≤ (5 : BitVec 4).toNat ∧ 5 ≤ (15 : BitVec 4).toNat ∧ (0 : BitVec 4).toNat < 3 ∧ (2 : BitVec 4).toNat < 3 ∧
    { State.reset with lock := true }.lock = true ∧ State.reset.lock = false := by decide

theorem test_witness_RdReturnsTheRegister :
    5 ≤ (5 : BitVec 4).toNat ∧ 5 ≤ (15 : BitVec 4).toNat ∧ (4 : BitVec 4) ≠ 3 := by decide

theorem test_witness_RstRestoresResetValues :
    let s : State := { State.reset with lock := true, mfcnt := 3 }
    Instr.nop ≠ .rst ∧ exec .nop s = .next (also s [reply 0 0]) ∧ s.lock = true ∧ s.mfcnt ≠ 0 :=
  ⟨by decide, rfl, rfl, by decide⟩

theorem test_witness_ReservedOperationsOnlyAnswer :
    6 ≤ ((0x6000000000 : CommandWord).extractLsb' 36 4).toNat ∧
    6 ≤ ((0xF000000000 : CommandWord).extractLsb' 36 4).toNat := by decide

theorem test_witness_ReservedBitsReadAsZero : State.reset.lock = false := by decide

theorem test_witness_TickByQuotientAndRemainder :
    State.reset.rate = 0 ∧
    (let s : State := { State.reset with mode := .oneHigh, rate := 100000 };
      s.rate ≠ 0 ∧ 2 * (40000000 % tickN s) < tickN s ∧ 200 = 40000000 / tickN s) ∧
    (let s : State := { State.reset with mode := .oneHigh, rate := 44100 };
      s.rate ≠ 0 ∧ 2 * (40000000 % tickN s) > tickN s ∧ 454 = 40000000 / tickN s + 1) ∧
    (let s : State := { State.reset with mode := .oneHigh, rate := 64000 };
      s.rate ≠ 0 ∧ 2 * (40000000 % tickN s) = tickN s ∧ 312 = 40000000 / tickN s) := by decide

theorem test_witness_TickReturnsTheNearestCount :
    (let s : State := { State.reset with rate := 611 };
      0 < tickN s ∧ (2 * 65466 - 1) * tickN s < 80000000 ∧ 80000000 < (2 * 65466 + 1) * tickN s) ∧
    (let s : State := { State.reset with rate := 79999999 };
      0 < tickN s ∧ (2 * 1 - 1) * tickN s < 80000000 ∧ 80000000 < (2 * 1 + 1) * tickN s) := by decide

theorem test_witness_TickSucceedsExactlyInRange :
    tickN { State.reset with rate := 610 } = 610 ∧ tickN { State.reset with rate := 611 } = 611 ∧
    tickN { State.reset with rate := 79999999 } = 79999999 ∧
    tickN { State.reset with rate := 80000000 } = 80000000 := by decide

theorem test_witness_TickErrorAtMostHalfATick :
    let s : State := { State.reset with mode := .oneHigh, rate := 44100 }
    exec .tick s = .next (also s [reply 0 454]) ∧ (also s [reply 0 454]).delivered = s.delivered ++ [reply 0 454] :=
  ⟨rfl, rfl⟩

theorem test_witness_TiesAreTheEightListed :
    0 < 1 ∧ 1 ∉ tieTable ∧ 1023 ∉ tieTable ∧ 1024 ∈ tieTable ∧ 80000000 ∈ tieTable := by decide

theorem test_witness_TickCountNonIncreasing : 0 < 1 ∧ 1 ≤ 1 ∧ 1 ≤ 80000000 := by decide

theorem test_witness_TickIsAPureQuery :
    let s : State := { State.reset with rate := 44100 }
    let s' : State := { State.reset with rate := 44100, lock := true, mfcnt := 7 }
    s ≠ s' ∧ s.rate = s'.rate ∧ s.mode = s'.mode := by decide

theorem test_witness_Decode1LDeliversEveryByte :
    longest.length < 65536 ∧ (holding .oneLow longest).cb = Memory.ofBytes longest ∧
    (holding .oneLow longest).mode = .oneLow := ⟨by rw [longest_length]; decide, rfl, rfl⟩

theorem test_witness_Decode1HDeliversMaskedWords :
    (holding .oneHigh [0xF5, 0xFF]).cb = Memory.ofBytes [0xF5, 0xFF] ∧
    (holding .oneHigh [0xF5, 0xFF]).mode = .oneHigh ∧
    ([0xF5, 0xFF] : List Byte).length % 2 = 0 ∧ ([0x01, 0x02, 0x03] : List Byte).length % 2 ≠ 0 := by decide

theorem test_witness_Decode2LInterleavesChannels :
    (holding .twoLow [0, 1, 2, 3]).cb = Memory.ofBytes [0, 1, 2, 3] ∧
    (holding .twoLow [0, 1, 2, 3]).mode = .twoLow ∧ (holding .twoLow [0, 1, 2, 3]).strict = false ∧
    ([0, 1, 2, 3] : List Byte).length % 4 = 0 ∧ ([0, 1] : List Byte).length % 4 ≠ 0 := by decide

theorem test_witness_Decode2HKeepsInterleaveOrder :
    (holding .twoHigh [0x13, 0x00]).cb = Memory.ofBytes [0x13, 0x00] ∧
    (holding .twoHigh [0x13, 0x00]).mode = .twoHigh ∧ ([0x13, 0x00] : List Byte).length % 2 = 0 := by decide

theorem test_witness_DecodeRejectsBadLength :
    longest.length < 65536 ∧ (holding .twoLow longest).cb = Memory.ofBytes longest ∧
    longest.length % unitBytes (holding .twoLow longest).mode ≠ 0 :=
  ⟨by rw [longest_length]; decide, rfl, by rw [longest_length]; decide⟩

/-- The state of V-D9 and V-D10. -/
def strictState (bytes : List Byte) : State := { holding .twoLow bytes with strict := true, token := 0xA5 }

theorem test_witness_StrictTokenCheck_mismatch :
    let bytes : List Byte := [0xA5, 0x01, 0x10, 0x20, 0x5A, 0x02, 0x30, 0x40]
    let s := strictState bytes
    bytes.length < 65536 ∧ s.cb = Memory.ofBytes bytes ∧ s.mode = .twoLow ∧ bytes.length % 4 = 0 ∧
    s.strict = true ∧ ¬ tokensEqual s.token bytes :=
  ⟨by decide, rfl, rfl, by decide, rfl, fun h => absurd (h 1 (by decide)) (by decide)⟩

theorem test_witness_StrictTokenCheck_match :
    let bytes : List Byte := [0xA5, 0x01, 0x10, 0x20]
    let s := strictState bytes
    bytes.length % 4 = 0 ∧ s.strict = true ∧ tokensEqual s.token bytes := by
  refine ⟨by decide, rfl, fun q hq => ?_⟩
  have hq0 : q = 0 := by simp at hq; omega
  subst hq0
  rfl

theorem test_witness_EmptyChunkSucceeds : State.reset.cb = [] := by decide

theorem test_witness_WrongChunkLengthRefused :
    (holding .oneLow [1]).cb = Memory.ofBytes [1] ∧ ([1] : List Byte).length ≠ (0 : BitVec 16).toNat ∧
    ([1] : List Byte).length ≠ (0xFFFF : BitVec 16).toNat := by decide

theorem test_witness_DecodeAlwaysAnswersAndLocks :
    (holding .oneHigh [1, 2, 3]).cb = Memory.ofBytes [1, 2, 3] ∧
    ([1, 2, 3] : List Byte).length = (3 : BitVec 16).toNat := by decide

theorem test_witness_DecodeReadsOnlyItsArguments :
    let s := holding .oneLow [0x42]
    let s' : State := { s with rate := 7, lock := true, mfcnt := 9 }
    s.mode = s'.mode ∧ s.strict = s'.strict ∧ s.token = s'.token ∧ s.cb = s'.cb ∧
    exec (.decode 1) s = .next (afterDecode s [sr 0 0 0x0042, reply 0 1]) := ⟨rfl, rfl, rfl, rfl, rfl⟩

theorem test_witness_WriteSeenByTheNextCommand :
    State.reset.lock = false ∧ (0 : BitVec 4).toNat < 3 ∧ (2 : BitVec 4).toNat < 3 ∧
    { State.reset with pending := [.command 0x12000186A0 [], .command 0x3000000000 []] }.pending =
      .command ((0x1 : BitVec 4) ++ (2 : BitVec 4) ++ (100000 : BitVec 32)) [] :: .command 0x3000000000 [] :: [] ∧
    { State.reset with pending := [.command 0x1000000006 [], .command 0x4000000002 [0xC8, 0x00]] }.pending =
      .command ((0x1 : BitVec 4) ++ (0 : BitVec 4) ++ (6 : BitVec 32)) [] ::
        .command 0x4000000002 [0xC8, 0x00] :: [] ∧
    ([0xC8, 0x00] : List Byte).length = ((0x4000000002 : CommandWord).extractLsb' 0 16).toNat := by decide

theorem test_witness_SameChunkTwiceSameRecords :
    ([0x42] : List Byte).length < 65536 ∧
    { State.reset with pending := [decodeMove [0x42], decodeMove [0x42]] }.pending =
      decodeMove [0x42] :: decodeMove [0x42] :: [] := by decide

theorem test_witness_NextChunkUnaffectedByMalformedOne :
    let s : State := { State.reset with mode := .oneHigh, pending := [decodeMove [1, 2, 3], decodeMove [0x10, 0]] }
    s.pending = decodeMove [1, 2, 3] :: decodeMove [0x10, 0] :: [] ∧ malformed s [1, 2, 3] :=
  ⟨rfl, .inl (by decide)⟩

theorem test_witness_DecodedValuesStayInDomain :
    (let s := holding .oneLow [0xFF];
      exec (.decode 1) s = .next (afterDecode s [sr 0 0 0x00FF, reply 0 1]) ∧
      Output.sample 0x0000FF ∈ [sr 0 0 0x00FF, reply 0 1]) ∧
    (let s := holding .twoHigh [0x0F, 0x80];
      exec (.decode 2) s = .next (afterDecode s [sr 0 0xF 0x8000, reply 0 1]) ∧
      Output.sample 0x0F8000 ∈ [sr 0 0xF 0x8000, reply 0 1]) := ⟨⟨rfl, by decide⟩, ⟨rfl, by decide⟩⟩

/-- V-D5's values and markers. -/
def roundTripPattern : List (BitVec 16 × BitVec 4) :=
  [(0x8000, 0xA), (0xFFF0, 0x0), (0x0000, 0xF), (0x0010, 0x3), (0x7FF0, 0x5)]

theorem test_witness_PackedValuesDecodeBack :
    (∀ p ∈ roundTripPattern, p.1 &&& 0x000F = 0) ∧ 2 * roundTripPattern.length < 65536 ∧
    packWords roundTripPattern = [0x0A, 0x80, 0xF0, 0xFF, 0x0F, 0x00, 0x13, 0x00, 0xF5, 0x7F] ∧
    packQuads [(0xA5, 0x01, 0x10, 0x20)] = [0xA5, 0x01, 0x10, 0x20] ∧
    (holding .twoLow (packQuads [(0xA5, 0x01, 0x10, 0x20)])).strict = false :=
  ⟨by simp [roundTripPattern], by decide, rfl, rfl, rfl⟩

theorem test_witness_DecodeLoopEndsAtLen :
    let s : State := { holding .twoLow [0, 1, 2, 3] with len := 4 }
    s.cb = Memory.ofBytes [0, 1, 2, 3] ∧ ([0, 1, 2, 3] : List Byte).length % unitBytes s.mode = 0 ∧
    s.len = BitVec.ofNat 16 ([0, 1, 2, 3] : List Byte).length ∧ s.pos = 0 := by decide

theorem test_witness_EveryCommandOneResponse :
    (issued State.reset 0x4000000001 [0x42]).pending = .command 0x4000000001 [0x42] :: [] ∧
    step (issued State.reset 0x4000000001 [0x42]) =
      .next (afterDecode State.reset [sr 0 0 0x0042, reply 0 1]) := ⟨rfl, rfl⟩

theorem test_witness_DutifulHostAlwaysAnswered :
    { State.reset with
      pending := [.reset, .command 0x4000000001 [0x42], .command 0x3000000000 [], .command 0x4000000000 []]
      }.dutiful = true := by decide

theorem test_witness_ErrorsArePrecise :
    (let s := issued State.reset 0x3000000000 [];
      step s = .next { State.reset with delivered := [.response 0x0100000000] } ∧
      (0x0100000000 : ResponseWord).extractLsb' 32 8 ≠ 0 ∧ (0x0100000000 : ResponseWord).extractLsb' 32 8 ≠ 2) ∧
    (let s := issued { State.reset with mode := .oneHigh } 0x4000000001 [0x42];
      step s = .next (afterDecode { State.reset with mode := .oneHigh, mfcnt := 1 } [.response 0x0200000000]) ∧
      (0x0200000000 : ResponseWord).extractLsb' 32 8 = 2) :=
  ⟨⟨rfl, by decide, by decide⟩, ⟨rfl, by decide⟩⟩

theorem test_witness_LockedConfigurationImmutable :
    let s := issued { State.reset with lock := true } 0x1200000001 []
    s.lock = true ∧
    step s = .next { State.reset with lock := true, delivered := [.response 0x0300000000] } := ⟨rfl, rfl⟩

theorem test_witness_LockSetExactlyByDecode :
    step State.reset = .next State.reset ∧
    step { State.reset with lock := true, pending := [.reset] } = .next State.reset ∧
    step (issued State.reset 0x4000000000 []) = .next (afterDecode State.reset [reply 0 0]) := ⟨rfl, rfl, rfl⟩

theorem test_witness_MfcntCountsMalformedFrames :
    step { State.reset with mfcnt := 3, pending := [.reset] } = .next State.reset ∧
    step (issued { State.reset with mode := .oneHigh } 0x4000000001 [0x42]) =
      .next (afterDecode { State.reset with mode := .oneHigh, mfcnt := 1 } [.response 0x0200000000]) := ⟨rfl, rfl⟩

theorem test_witness_NothingSurvivesAnOperation :
    (issued State.reset 0x4000000001 [0x42]).quiet = true ∧
    step (issued State.reset 0x4000000001 [0x42]) =
      .next (afterDecode State.reset [sr 0 0 0x0042, reply 0 1]) := ⟨by decide, rfl⟩

theorem test_witness_ChunkBufferStaysCanonical :
    (holding .oneLow [0x42]).cb.wf = true ∧
    exec (.unit1L 0x42) (holding .oneLow [0x42]) =
      .next { holding .oneLow [0x42] with out := [{ lane := 0, marker := 0, val := 0x0042 }], pos := 1 } :=
  ⟨by decide, rfl⟩

theorem test_witness_OnlyDecodeTouchesTheBuffer :
    (∀ len, Instr.nop ≠ .decode len) ∧
    exec .nop (holding .oneLow [0x42]) = .next (also (holding .oneLow [0x42]) [reply 0 0]) :=
  ⟨fun _ => by simp, rfl⟩

theorem test_witness_UnreadBytesChangeNothing :
    let bytes : List Byte := [0xA5, 0x01, 0x10, 0x20]
    let bytes' : List Byte := [0x5A, 0x02, 0x10, 0x20]
    (holding .twoLow []).mode = .twoLow ∧ bytes.length = bytes'.length ∧ bytes.length = (4 : BitVec 16).toNat ∧
    ∀ a, a % 4 = 2 ∨ a % 4 = 3 ∨ (a % 4 = 0 ∧ (holding .twoLow []).strict = true) → bytes[a]? = bytes'[a]? := by
  refine ⟨rfl, rfl, rfl, fun a h => ?_⟩
  have hs : (holding .twoLow []).strict = false := rfl
  match a with
  | 0 => simp [hs] at h
  | 1 => simp at h
  | 2 => rfl
  | 3 => rfl
  | _ + 4 => rfl

theorem test_witness_TokenAndSamplePassesAreApart :
    let s : State := { holding .twoLow [] with len := 4 }
    let m := Memory.ofBytes [0xA5, 0x01, 0x10, 0x20]
    let m' := Memory.ofBytes [0xA5, 0x02, 0x10, 0x20]
    s.mode = .twoLow ∧ s.pos.toNat % 4 = 0 ∧ (∀ a, a % 4 = 0 → Memory.read m a = Memory.read m' a) ∧
    (∀ a, a % 4 = 2 ∨ a % 4 = 3 → Memory.read m a = Memory.read m' a) ∧
    unitLoop 1 { s with cb := m } = .next { s with
      cb := m, pos := 4, out := [{ lane := 0, marker := 0, val := 0x10 }, { lane := 1, marker := 0, val := 0x20 }] } := by
  have h : ∀ a, a % 4 ≠ 1 → Memory.read (Memory.ofBytes [0xA5, 0x01, 0x10, 0x20]) a =
      Memory.read (Memory.ofBytes [0xA5, 0x02, 0x10, 0x20]) a := fun a ha =>
    match a with
    | 0 => rfl
    | 1 => absurd rfl ha
    | 2 => rfl
    | 3 => rfl
    | _ + 4 => rfl
  exact ⟨rfl, rfl, fun a ha => h a (by omega), fun a ha => h a (by omega), rfl⟩

/-- V-D10's second quadruple differs from V-D9's in the token alone, and only the strict check sees it. -/
theorem test_token_unread_without_strict :
    (stepped (issued { State.reset with mode := .twoLow } 0x4000000004 [0x5A, 0x02, 0x30, 0x40])).delivered =
      [.sample 0x000030, .sample 0x100040, .response 0x0000000002] ∧
    fetchUnit { holding .twoLow [] with cb := [(2, 0x30), (3, 0x40)] } = some (.pair2L 0x30 0x40) := by decide

end Sys2Proof.Tests
end

section
/-!
SUPPORT. The registers (10_state.md): what WR, RD, RST and TICK do, stated once for each, what a register returns
after a write, and the two statements about reset values and reserved bits.
-/

namespace Sys2Proof.Machine

open Sys2Proof.Claims

/-! ## Responses, in the vocabulary of the statements -/

/-- `respond` is `also` with one response word (30_encoding.md rule R50). -/
theorem respond_eq_also (c : Code) (d : BitVec 32) (s : State) :
    respond c d s = also s [reply (codeNumber c) d] := rfl

theorem delivered_respond_respond (c c' : Code) (d d' : BitVec 32) (s : State) :
    (respond c' d' (respond c d s)).delivered =
      s.delivered ++ [reply (codeNumber c) d, reply (codeNumber c') d'] :=
  List.append_assoc s.delivered [reply (codeNumber c) d] [reply (codeNumber c') d']

/-- No register holds anything of what the block has delivered. -/
@[simp] theorem readReg_respond (r : RegName) (c : Code) (d : BitVec 32) (s : State) :
    readReg r (respond c d s) = readReg r s := by cases r <;> rfl

/-! ## The register operations -/

theorem exec_rst (s : State) : exec .rst s = .next (respond .ok 0 (resetRegisters s)) := rfl

theorem exec_rd_of_regOfNumber {addr : BitVec 4} {r : RegName} (h : regOfNumber addr = some r) (s : State) :
    exec (.rd addr) s = .next (respond .ok (readReg r s) s) := by
  simp only [exec, execRd, h]

theorem exec_wr_cfg_of_unlocked {s : State} (h : s.lock = false) (data : BitVec 32) :
    exec (.wr 0 data) s = .next (respond .ok 0 (writeCfg data s)) := by
  simp [exec, execWr, regOfNumber, h]

theorem exec_wr_token_of_unlocked {s : State} (h : s.lock = false) (data : BitVec 32) :
    exec (.wr 1 data) s = .next (respond .ok 0 (writeToken data s)) := by
  simp [exec, execWr, regOfNumber, h]

theorem exec_wr_rate_of_unlocked {s : State} (h : s.lock = false) (data : BitVec 32) :
    exec (.wr 2 data) s = .next (respond .ok 0 (writeRate data s)) := by
  simp [exec, execWr, regOfNumber, h]

theorem exec_tick (s : State) : exec .tick s = execTick s := rfl

/-- A RATE of 0 has no tick count, whatever TIE_UP is (41_tick.md rule R71). -/
theorem tick_rate_zero (tieUp : Nat → Bool) (m : Mode) : tick tieUp 0 m = none := if_pos rfl

theorem exec_tick_of_rate_zero {s : State} (h : s.rate = 0) :
    exec .tick s = .next (also s [reply 1 0]) := by
  obtain ⟨_, herr⟩ | ⟨_, _, hsome, _⟩ := execTick_cases s
  · rw [exec_tick, herr, raise_eq_respond .configurationRange s (by decide), respond_eq_also]
    rfl
  · rw [h, tick_rate_zero] at hsome
    cases hsome

/-! ## Reserved bits read as 0 (10_state.md rule R24) -/

/-- Keeping the low `n` bits of a word, with zeros above them, is masking with `2 ^ n - 1`. -/
theorem setWidth_extract_low {w : Nat} (x : BitVec w) (n : Nat) :
    (x.extractLsb' 0 n).setWidth w = x &&& BitVec.ofNat w (2 ^ n - 1) := by
  ext i hi
  simp [← BitVec.getLsbD_eq_getElem, hi, BitVec.getLsbD_ofNat, Nat.testBit_two_pow_sub_one, Bool.and_comm]

/-- STRICT over the two bits of MODE are the low three bits of the value written to CFG (10_state.md rule R19). -/
theorem cfg_bits_eq_extract (data : BitVec 32) :
    (0 : BitVec 29) ++ BitVec.ofBool (data.getLsbD 2) ++ data.extractLsb' 0 2 =
      (data.extractLsb' 0 3).setWidth 32 := by
  refine BitVec.eq_of_getLsbD_eq fun i hi => ?_
  rw [BitVec.getLsbD_append, BitVec.getLsbD_append, BitVec.getLsbD_setWidth, BitVec.getLsbD_ofBool]
  obtain hmode | rfl | hreserved : i < 2 ∨ i = 2 ∨ 2 < i := by omega
  · simp [hmode, hi, show i < 3 by omega]
  · simp
  · simp [show ¬ i < 2 by omega, show ¬ i < 3 by omega, show i - 2 ≠ 0 by omega]

theorem readReg_writeCfg (data : BitVec 32) (s : State) :
    readReg .cfg (writeCfg data s) = data &&& 0x00000007 := by
  simp only [readReg, writeCfg_strict, writeCfg_mode, modeBits_modeOfBits]
  rw [cfg_bits_eq_extract, setWidth_extract_low]
  rfl

theorem readReg_writeToken (data : BitVec 32) (s : State) :
    readReg .token (writeToken data s) = data &&& 0x000000FF :=
  setWidth_extract_low data 8

theorem readReg_writeRate (data : BitVec 32) (s : State) : readReg .rate (writeRate data s) = data := rfl

theorem readReg_status (s : State) : readReg .status s = if s.lock then 1 else 0 := by
  cases h : s.lock <;> simp [readReg, h]

/-- After a WR answered with OK that left the registers of `w`, a RD delivers `w`'s register. -/
theorem wr_then_rd {s w : State} {addr : BitVec 4} {data : BitVec 32} {r : RegName}
    (hreg : regOfNumber addr = some r) (hwr : exec (.wr addr data) s = .next (respond .ok 0 w)) :
    ∃ t u, exec (.wr addr data) s = .next t ∧ exec (.rd addr) t = .next u ∧
      u.delivered = w.delivered ++ [reply 0 0, reply 0 (readReg r w)] := by
  refine ⟨_, _, hwr, exec_rd_of_regOfNumber hreg _, ?_⟩
  rw [readReg_respond, delivered_respond_respond]
  rfl

/-! ## The statements -/

/-- Settles O13, from the effect of RST on every register and TICK's answer to a RATE of 0. -/
theorem resetValues : Obligations.ResetValues := by
  unfold Obligations.ResetValues
  refine ⟨by decide, fun s => ⟨_, exec_rst s, ?_⟩, exec_tick_of_rate_zero rfl⟩
  simp

/-- Settles O20: for each configuration register, the write's effect and the register it leaves. -/
theorem reservedBitsReadAsZero : Obligations.ReservedBitsReadAsZero := by
  unfold Obligations.ReservedBitsReadAsZero
  refine fun s data => ⟨fun hlock => ⟨?cfg, ?token, ?rate⟩, ?status⟩
  case cfg =>
    have h := wr_then_rd (r := .cfg) rfl (exec_wr_cfg_of_unlocked hlock data)
    rwa [readReg_writeCfg] at h
  case token =>
    have h := wr_then_rd (r := .token) rfl (exec_wr_token_of_unlocked hlock data)
    rwa [readReg_writeToken] at h
  case rate =>
    have h := wr_then_rd (r := .rate) rfl (exec_wr_rate_of_unlocked hlock data)
    rwa [readReg_writeRate] at h
  case status =>
    refine ⟨_, exec_rd_of_regOfNumber (r := .status) rfl s, ?_⟩
    rw [readReg_status]
    rfl

end Sys2Proof.Machine
end

section
/-!
SUPPORT. Command words (30_encoding.md rules R44 to R47, R62, R63): what each operation code decodes to, what the
reserved codes do, and the words behind the assembler's lines; then the three statements about them.
-/

namespace Sys2Proof.Machine

open Sys2Proof.Claims

/-! ## What a command word decodes to, by its `op` field (30_encoding.md rules R45 and R47) -/

section Decoding

variable (addr : BitVec 4) (data : BitVec 32)

@[simp] theorem decodeCommand_commandWord_nop : decodeCommand (commandWord 0x0 addr data) = .nop := by
  simp [decodeCommand]

@[simp] theorem decodeCommand_commandWord_wr :
    decodeCommand (commandWord 0x1 addr data) = .wr addr data := by
  simp [decodeCommand]

@[simp] theorem decodeCommand_commandWord_rd : decodeCommand (commandWord 0x2 addr data) = .rd addr := by
  simp [decodeCommand]

@[simp] theorem decodeCommand_commandWord_tick : decodeCommand (commandWord 0x3 addr data) = .tick := by
  simp [decodeCommand]

@[simp] theorem decodeCommand_commandWord_decode :
    decodeCommand (commandWord 0x4 addr data) = .decode (data.extractLsb' 0 16) := by
  simp [decodeCommand]

@[simp] theorem decodeCommand_commandWord_rst : decodeCommand (commandWord 0x5 addr data) = .rst := by
  simp [decodeCommand]

end Decoding

theorem decodeCommand_of_op_6_or_7 {cw : CommandWord} (h : opField cw = 0x6 ∨ opField cw = 0x7) :
    decodeCommand cw = .reserved67 (opField cw) := by
  obtain h | h := h <;> simp [decodeCommand, h]

/-- The codes 0 to 7 have arms of their own; the decoder's last arm takes the rest. -/
theorem decodeCommand_of_8_le_op {cw : CommandWord} (h : 8 ≤ (opField cw).toNat) :
    decodeCommand cw = .reserved8F (opField cw) := by
  unfold decodeCommand
  split
  case h_9 => rfl
  all_goals omega

/-- A reserved operation code has one of the two reserved rows. -/
theorem decodeCommand_of_6_le_op {cw : CommandWord} (h : 6 ≤ (opField cw).toNat) :
    decodeCommand cw = .reserved67 (opField cw) ∨ decodeCommand cw = .reserved8F (opField cw) := by
  obtain h67 | h8 : (opField cw = 0x6 ∨ opField cw = 0x7) ∨ 8 ≤ (opField cw).toNat := by bv_omega
  · exact .inl (decodeCommand_of_op_6_or_7 h67)
  · exact .inr (decodeCommand_of_8_le_op h8)

/-! ## What the reserved rows do (30_encoding.md rule R47) -/

/-- A reserved operation is no MalformedFrame, so raising it only answers. -/
theorem raise_reservedOperation (s : State) : raise .reservedOperation s = also s [reply 4 0] :=
  (raise_eq_respond .reservedOperation s (by decide)).trans (respond_eq_also .illegalCommand 0 s)

theorem exec_reserved67 (op : BitVec 4) (s : State) : exec (.reserved67 op) s = .next (also s [reply 4 0]) :=
  congrArg Host.Outcome.next (raise_reservedOperation s)

theorem exec_reserved8F (op : BitVec 4) (s : State) : exec (.reserved8F op) s = .next (also s [reply 4 0]) :=
  congrArg Host.Outcome.next (raise_reservedOperation s)

/-! ## The assembler's lines (30_encoding.md rules R62 and R63) -/

/-- With `addr` 0 the first eight bits of a command word are one byte, `op` and a zero digit. -/
theorem commandWord_decode_addr_zero (data : BitVec 32) :
    commandWord 0x4 0 data = (0x40 : BitVec 8) ++ data := rfl

/-- `, STRICT` adds 4 to the value that SETMODE writes to CFG. -/
theorem cfg_value_of_mode (m : Mode) (strict : Bool) :
    (0 : BitVec 29) ++ BitVec.ofBool strict ++ modeBits m =
      (modeCode m).setWidth 32 + if strict then 4 else 0 := by
  cases m <;> cases strict <;> decide

theorem extract_low_ofNat (n k w : Nat) (h : n ≤ w) :
    (BitVec.ofNat w k).extractLsb' 0 n = BitVec.ofNat n k := by
  rw [← BitVec.setWidth_eq_extractLsb' h, BitVec.setWidth_ofNat_of_le h]

/-- The decoder reads a line's word as the line's instruction; a DECODE line of 65536 bytes or more has its count
cut to LEN's 16 bits on both sides. -/
theorem decodeCommand_asmWord (line : AsmLine) : decodeCommand (asmWord line) = asmInstr line := by
  cases line with
  | nop => exact decodeCommand_commandWord_nop 0 0
  | wr reg value => exact decodeCommand_commandWord_wr reg value
  | rd reg => exact decodeCommand_commandWord_rd reg 0
  | tick => exact decodeCommand_commandWord_tick 0 0
  | decode chunk =>
    rw [asmWord, decodeCommand_commandWord_decode, extract_low_ofNat 16 chunk.length 32 (by decide)]
    rfl
  | rst => exact decodeCommand_commandWord_rst 0 0
  | cw word chunk => rfl
  | setMode mode strict => exact decodeCommand_commandWord_wr (regNumber .cfg) _
  | setRate hz => exact decodeCommand_commandWord_wr (regNumber .rate) hz
  | setToken byte => exact decodeCommand_commandWord_wr (regNumber .token) (byte.setWidth 32)

/-! ## The statements -/

/-- Settles O3, from the decoder's equation for each operation code. -/
theorem operationCodeSelectsOperation : Obligations.OperationCodeSelectsOperation := by
  unfold Obligations.OperationCodeSelectsOperation
  intro op addr data cw
  have hop : opField cw = op := opField_commandWord op addr data
  refine ⟨?nop, ?wr, ?rd, ?tick, ?decode, ?rst, ?reserved67, ?reserved8F⟩
  case nop => rintro rfl; exact decodeCommand_commandWord_nop addr data
  case wr => rintro rfl; exact decodeCommand_commandWord_wr addr data
  case rd => rintro rfl; exact decodeCommand_commandWord_rd addr data
  case tick => rintro rfl; exact decodeCommand_commandWord_tick addr data
  case decode => rintro rfl; exact decodeCommand_commandWord_decode addr data
  case rst => rintro rfl; exact decodeCommand_commandWord_rst addr data
  case reserved67 => exact fun h => hop ▸ decodeCommand_of_op_6_or_7 (hop.symm ▸ h)
  case reserved8F => exact fun h => hop ▸ decodeCommand_of_8_le_op (hop.symm ▸ h)

/-- Settles O8: the words and the pseudo-commands by the assembler's equations, the decoding by a case split on the
line. -/
theorem assemblerLinesStandForTheListedWords : Obligations.AssemblerLinesStandForTheListedWords := by
  unfold Obligations.AssemblerLinesStandForTheListedWords
  refine ⟨fun reg value word chunk => ⟨rfl, rfl, rfl, rfl, ?decode, rfl, rfl⟩,
    fun m hz byte => ⟨?plain, ?strict, rfl, rfl⟩,
    fun line _ => decodeCommand_asmWord line, fun chunk _ => decodeCommand_asmWord (.decode chunk)⟩
  case decode =>
    exact congrArg (HostMove.command · chunk) (commandWord_decode_addr_zero (BitVec.ofNat 32 chunk.length))
  case plain =>
    exact congrArg (Instr.wr 0) ((cfg_value_of_mode m false).trans (BitVec.add_zero _))
  case strict =>
    exact congrArg (Instr.wr 0) (cfg_value_of_mode m true)

/-- Settles O19, from the effect of the two reserved rows and the decoding of the reserved codes. -/
theorem reservedOperationsOnlyAnswer : Obligations.ReservedOperationsOnlyAnswer := by
  unfold Obligations.ReservedOperationsOnlyAnswer
  refine fun s => ⟨fun op => exec_reserved67 op s, fun op => exec_reserved8F op s, fun cw hcw => ?_⟩
  obtain h | h := decodeCommand_of_6_le_op hcw
  · rw [h, exec_reserved67]
  · rw [h, exec_reserved8F]

end Sys2Proof.Machine
end

section
/-!
SUPPORT. The register operations (40_register_ops.md) as the statements write them: what NOP answers, every answer
of WR and of RD by register number, and what each instruction but RST does to LOCK and MFCNT; then the four
statements.
-/

namespace Sys2Proof.Machine

open Sys2Proof.Claims

/-! ## Errors and mode codes, in the vocabulary of the statements -/

/-- An error other than MalformedFrame delivers its response and changes nothing (60_exceptions.md rule R110). -/
theorem raise_eq_also {e : BlockError} (he : errorCode e ≠ .malformedFrame) (s : State) :
    raise e s = also s [reply (codeNumber (errorCode e)) (errorInfo e)] :=
  (raise_eq_respond e s he).trans (respond_eq_also (errorCode e) (errorInfo e) s)

theorem modeBits_eq_modeCode (m : Mode) : modeBits m = modeCode m := by cases m <;> rfl

/-! ## NOP, WR and RD by register number (40_register_ops.md rules R65 to R67) -/

theorem exec_nop (s : State) : exec .nop s = .next (also s [reply 0 0]) := rfl

theorem exec_wr_of_reserved {addr : BitVec 4} (haddr : 5 ≤ addr.toNat) (data : BitVec 32) (s : State) :
    exec (.wr addr data) s = .next (also s [reply 4 1]) := by
  simp only [exec, execWr, (regOfNumber_eq_none_iff addr).mpr haddr]
  exact congrArg Host.Outcome.next (raise_eq_also (e := .reservedRegister) (by decide) s)

theorem exec_wr_of_readOnly {addr : BitVec 4} (haddr : addr = 3 ∨ addr = 4) (data : BitVec 32) (s : State) :
    exec (.wr addr data) s = .next (also s [reply 4 2]) := by
  have hraise := raise_eq_also (e := .readOnlyRegister) (by decide) s
  obtain rfl | rfl := haddr <;> exact congrArg Host.Outcome.next hraise

/-- The numbers of the three configuration registers. -/
theorem addr_eq_of_lt_three {addr : BitVec 4} (haddr : addr.toNat < 3) : addr = 0 ∨ addr = 1 ∨ addr = 2 := by
  bv_omega

theorem exec_wr_of_locked {addr : BitVec 4} (haddr : addr.toNat < 3) {s : State} (hlock : s.lock = true)
    (data : BitVec 32) : exec (.wr addr data) s = .next (also s [reply 3 0]) := by
  have hraise : raise .configLocked s = also s [reply 3 0] := raise_eq_also (by decide) s
  obtain rfl | rfl | rfl := addr_eq_of_lt_three haddr <;> simp [exec, execWr, regOfNumber, hlock, hraise]

/-- Everything WR can answer: an error that changes nothing, or, while LOCK is 0, OK with one configuration register
written. -/
theorem exec_wr_cases (addr : BitVec 4) (data : BitVec 32) (s : State) :
    (∃ code info, exec (.wr addr data) s = .next (also s [reply code info])) ∨
    (s.lock = false ∧ ∃ w, (w = writeCfg data s ∨ w = writeToken data s ∨ w = writeRate data s) ∧
      exec (.wr addr data) s = .next (respond .ok 0 w)) := by
  obtain hreserved | hreadOnly | hconfig : 5 ≤ addr.toNat ∨ (addr = 3 ∨ addr = 4) ∨ addr.toNat < 3 := by bv_omega
  · exact .inl ⟨_, _, exec_wr_of_reserved hreserved data s⟩
  · exact .inl ⟨_, _, exec_wr_of_readOnly hreadOnly data s⟩
  · cases hlock : s.lock with
    | true => exact .inl ⟨_, _, exec_wr_of_locked hconfig hlock data⟩
    | false =>
      refine .inr ⟨rfl, ?_⟩
      obtain rfl | rfl | rfl := addr_eq_of_lt_three hconfig
      · exact ⟨_, .inl rfl, exec_wr_cfg_of_unlocked hlock data⟩
      · exact ⟨_, .inr (.inl rfl), exec_wr_token_of_unlocked hlock data⟩
      · exact ⟨_, .inr (.inr rfl), exec_wr_rate_of_unlocked hlock data⟩

theorem exec_rd_of_reserved {addr : BitVec 4} (haddr : 5 ≤ addr.toNat) (s : State) :
    exec (.rd addr) s = .next (also s [reply 4 1]) := by
  simp only [exec, execRd, (regOfNumber_eq_none_iff addr).mpr haddr]
  exact congrArg Host.Outcome.next (raise_eq_also (e := .reservedRegister) (by decide) s)

/-- RD of a register that exists, once its value is known in the statement's layout. -/
theorem exec_rd_eq_also {addr : BitVec 4} {r : RegName} (hreg : regOfNumber addr = some r) {s : State}
    {value : BitVec 32} (hvalue : readReg r s = value) : exec (.rd addr) s = .next (also s [reply 0 value]) := by
  rw [exec_rd_of_regOfNumber hreg, hvalue, respond_eq_also]
  rfl

theorem readReg_cfg (s : State) :
    readReg .cfg s = (0 : BitVec 29) ++ BitVec.ofBool s.strict ++ modeCode s.mode :=
  congrArg ((0 : BitVec 29) ++ BitVec.ofBool s.strict ++ ·) (modeBits_eq_modeCode s.mode)

theorem readReg_token (s : State) : readReg .token s = (0 : BitVec 24) ++ s.token :=
  BitVec.setWidth_eq_append (by decide)

/-- Everything RD can answer: one response, and nothing else changed. -/
theorem exec_rd_cases (addr : BitVec 4) (s : State) :
    ∃ code data, exec (.rd addr) s = .next (also s [reply code data]) := by
  cases hreg : regOfNumber addr with
  | none => exact ⟨_, _, exec_rd_of_reserved ((regOfNumber_eq_none_iff addr).mp hreg) s⟩
  | some r => exact ⟨_, _, exec_rd_eq_also hreg rfl⟩

/-- Everything TICK can answer: one response, and nothing else changed (41_tick.md rule R70). -/
theorem exec_tick_cases (s : State) : ∃ code data, exec .tick s = .next (also s [reply code data]) := by
  obtain ⟨_, herr⟩ | ⟨_, _, _, hok⟩ := execTick_cases s
  · exact ⟨_, _, herr.trans (congrArg Host.Outcome.next (raise_eq_also (by decide) s))⟩
  · exact ⟨_, _, hok⟩

/-! ## LOCK and MFCNT (10_state.md rules R17 and R23) -/

/-- The model's saturating count is the one the statements spell out. -/
theorem countMalformed_mfcnt_eq_counted (s : State) : (countMalformed s).mfcnt = counted s.mfcnt := by
  rw [countMalformed_mfcnt, counted, sat32]
  split
  case isTrue hmax => rw [hmax]; rfl
  case isFalse hmax => bv_omega

/-- Saturation keeps the counter from wrapping to 0. -/
theorem counted_ne_zero (c : BitVec 32) : counted c ≠ 0 := by
  rw [counted]
  split
  case isTrue hmax => rw [hmax]; decide
  case isFalse hmax => bv_omega

/-- MalformedFrame, of either cause, leaves LOCK set and counts. -/
theorem raise_malformed_lock_mfcnt {e : BlockError} (he : errorCode e = .malformedFrame) (s : State) :
    (raise e s).lock = true ∧ (raise e s).mfcnt = counted s.mfcnt := by
  rw [raise_eq_of_malformed e s he]
  exact ⟨rfl, countMalformed_mfcnt_eq_counted (setLock s)⟩

/-- A DECODE that answers leaves LOCK set, and MFCNT as it was or counted. -/
theorem execDecode_lock_mfcnt {len : BitVec 16} {s t : State} (h : execDecode len s = .next t) :
    t.lock = true ∧ (t.mfcnt = s.mfcnt ∨ t.mfcnt = counted s.mfcnt) := by
  obtain ⟨_, ⟨_, rfl⟩ | ⟨_, _, rfl⟩ | ⟨_, _, recs, p, _, rfl⟩⟩ := execDecode_cases h
  · obtain ⟨hlock, hmfcnt⟩ := raise_malformed_lock_mfcnt (e := .malformedLength) rfl (setLock s)
    exact ⟨hlock, .inr hmfcnt⟩
  · obtain ⟨hlock, hmfcnt⟩ := raise_malformed_lock_mfcnt (e := .malformedToken) rfl (setLock s)
    exact ⟨hlock, .inr hmfcnt⟩
  · exact ⟨rfl, .inl rfl⟩

theorem exec_unit_keeps_lock_mfcnt {u : FrameUnit} {s t : State} (h : exec u.toInstr s = .next t) :
    t.lock = s.lock ∧ t.mfcnt = s.mfcnt := by
  rw [exec_toInstr, runUnit_eq] at h
  cases h
  exact ⟨rfl, rfl⟩

/-- An instruction that only delivers words keeps both. -/
theorem keeps_lock_mfcnt_of_also {i : Instr} {s t : State} {outs : List Output}
    (hexec : exec i s = .next (also s outs)) (h : exec i s = .next t) :
    t.lock = s.lock ∧ t.mfcnt = s.mfcnt := by
  cases hexec.symm.trans h
  exact ⟨rfl, rfl⟩

theorem exec_wr_keeps_lock_mfcnt {addr : BitVec 4} {data : BitVec 32} {s t : State}
    (h : exec (.wr addr data) s = .next t) : t.lock = s.lock ∧ t.mfcnt = s.mfcnt := by
  obtain ⟨_, _, herr⟩ | ⟨_, w, hw, hok⟩ := exec_wr_cases addr data s
  · exact keeps_lock_mfcnt_of_also herr h
  · cases hok.symm.trans h
    obtain rfl | rfl | rfl := hw <;> exact ⟨rfl, rfl⟩

/-- Only DECODE and RST write LOCK or MFCNT. -/
theorem exec_keeps_lock_mfcnt {i : Instr} {s t : State} (hrst : i ≠ .rst) (hdecode : ∀ len, i ≠ .decode len)
    (h : exec i s = .next t) : t.lock = s.lock ∧ t.mfcnt = s.mfcnt := by
  cases i with
  | nop => exact keeps_lock_mfcnt_of_also (exec_nop s) h
  | wr addr data => exact exec_wr_keeps_lock_mfcnt h
  | rd addr =>
    obtain ⟨_, _, hexec⟩ := exec_rd_cases addr s
    exact keeps_lock_mfcnt_of_also hexec h
  | tick =>
    obtain ⟨_, _, hexec⟩ := exec_tick_cases s
    exact keeps_lock_mfcnt_of_also hexec h
  | decode len => exact absurd rfl (hdecode len)
  | rst => exact absurd rfl hrst
  | reserved67 op => exact keeps_lock_mfcnt_of_also (exec_reserved67 op s) h
  | reserved8F op => exact keeps_lock_mfcnt_of_also (exec_reserved8F op s) h
  | unit1L v => exact exec_unit_keeps_lock_mfcnt (u := .byte1L v) h
  | unit1H v m => exact exec_unit_keeps_lock_mfcnt (u := .word1H v m) h
  | unit2L t c a b => exact exec_unit_keeps_lock_mfcnt (u := .quad2L t c a b) h
  | unit2H v m => exact exec_unit_keeps_lock_mfcnt (u := .word2H v m) h

/-! ## The statements -/

/-- Settles O18: a DECODE sets LOCK and at most counts up without wrapping; the other instructions leave LOCK and
MFCNT alone. -/
theorem rstRestoresResetValues : Obligations.RstRestoresResetValues := by
  unfold Obligations.RstRestoresResetValues
  refine fun s => ⟨exec_rst s, fun i t hrst h => ?_⟩
  by_cases hdecode : ∃ len, i = .decode len
  · obtain ⟨len, rfl⟩ := hdecode
    obtain ⟨hlock, hsame | hcounted⟩ := execDecode_lock_mfcnt h
    · exact ⟨fun _ => hlock, fun hne => hsame.trans_ne hne⟩
    · exact ⟨fun _ => hlock, fun _ => hcounted.trans_ne (counted_ne_zero s.mfcnt)⟩
  · obtain ⟨hlock, hmfcnt⟩ := exec_keeps_lock_mfcnt hrst (not_exists.mp hdecode) h
    exact ⟨hlock.trans, hmfcnt.trans_ne⟩

/-- Settles O15: it is NOP's equation. -/
theorem nopOnlyResponds : Obligations.NopOnlyResponds := exec_nop

/-- Settles O16: one equation per class of register number and phase. -/
theorem wrChecksThenWrites : Obligations.WrChecksThenWrites := by
  unfold Obligations.WrChecksThenWrites
  refine fun s addr data => ⟨fun h => exec_wr_of_reserved h data s, fun h => exec_wr_of_readOnly h data s,
    fun h hlock => exec_wr_of_locked h hlock data, ?cfg, ?token, ?rate⟩
  case cfg =>
    rintro rfl hlock
    have hmode : modeCode (modeOfBits (data.extractLsb' 0 2)) = data.extractLsb' 0 2 := by
      rw [← modeBits_eq_modeCode, modeBits_modeOfBits]
    exact ⟨_, hmode, exec_wr_cfg_of_unlocked hlock data⟩
  case token =>
    rintro rfl hlock
    exact exec_wr_token_of_unlocked hlock data
  case rate =>
    rintro rfl hlock
    exact exec_wr_rate_of_unlocked hlock data

/-- Settles O17: the reserved numbers, then each register's value in the statement's layout. -/
theorem rdReturnsTheRegister : Obligations.RdReturnsTheRegister := by
  unfold Obligations.RdReturnsTheRegister
  refine fun s addr => ⟨fun h => exec_rd_of_reserved h s, ?cfg, ?token, ?rate, ?status, ?mfcnt⟩
  case cfg => rintro rfl; exact exec_rd_eq_also rfl (readReg_cfg s)
  case token => rintro rfl; exact exec_rd_eq_also rfl (readReg_token s)
  case rate => rintro rfl; exact exec_rd_eq_also (r := .rate) rfl rfl
  case status => rintro rfl; exact exec_rd_eq_also (r := .status) rfl rfl
  case mfcnt => rintro rfl; exact exec_rd_eq_also (r := .mfcnt) rfl rfl

end Sys2Proof.Machine
end

section
/-!
SUPPORT. TICK (41_tick.md) as the statements write it: the response word as a function of RATE and MODE alone, and
that word by the rounded count; then the two statements.
-/

namespace Sys2Proof.Machine

open Sys2Proof.Claims

/-! ## The response word of TICK, from RATE and MODE alone (41_tick.md rule R70) -/

/-- The response word of TICK (41_tick.md rule R69). -/
def tickWord (rate : BitVec 32) (mode : Mode) : ResponseWord :=
  match tick Config.tieUp rate mode with
  | none => rw 1 0
  | some (high, low) => rw 0 ((0 : BitVec 16) ++ high ++ low)

theorem tickWord_of_none {rate : BitVec 32} {mode : Mode} (h : tick Config.tieUp rate mode = none) :
    tickWord rate mode = rw 1 0 := by
  rw [tickWord, h]

theorem tickWord_of_some {rate : BitVec 32} {mode : Mode} {high low : Byte}
    (h : tick Config.tieUp rate mode = some (high, low)) :
    tickWord rate mode = rw 0 ((0 : BitVec 16) ++ high ++ low) := by
  rw [tickWord, h]

/-- TICK delivers `tickWord` and changes nothing else, in every state. -/
theorem exec_tick_eq_also (s : State) :
    exec .tick s = .next (also s [.response (tickWord s.rate s.mode)]) := by
  obtain ⟨hnone, herr⟩ | ⟨high, low, hsome, hok⟩ := execTick_cases s
  · rw [tickWord_of_none hnone, exec_tick, herr, raise_eq_also (by decide)]
    rfl
  · rw [tickWord_of_some hsome, exec_tick, hok]
    rfl

/-! ## The rounded count and its register pair (41_tick.md rules R71, R72, R74 and R78) -/

theorem divisor_eq_tickN (s : State) : divisor s.rate s.mode = tickN s :=
  congrArg (s.rate.toNat * ·) (by cases s.mode <;> rfl)

/-- The three cases of the rounding exclude one another, so the count they name is the rounded one. -/
theorem eq_roundNearest_of_cases {tieUp : Nat → Bool} {n ticks : Nat}
    (h : 2 * (40000000 % n) < n ∧ ticks = 40000000 / n ∨
      2 * (40000000 % n) > n ∧ ticks = 40000000 / n + 1 ∨
      2 * (40000000 % n) = n ∧ ticks = 40000000 / n + if tieUp n then 1 else 0) :
    ticks = roundNearest tieUp n := by
  obtain ⟨hrem, heq⟩ | ⟨hrem, heq⟩ | ⟨hrem, heq⟩ := roundNearest_cases tieUp n
  · omega
  · omega
  · omega

/-- The range check and the split into bytes, once RATE is not 0. -/
theorem tick_of_rate_ne_zero {rate : BitVec 32} (h : rate ≠ 0) (tieUp : Nat → Bool) (mode : Mode) :
    tick tieUp rate mode =
      if roundNearest tieUp (divisor rate mode) = 0 ∨ 65535 < roundNearest tieUp (divisor rate mode) then none
      else some (tickPair (roundNearest tieUp (divisor rate mode))) :=
  if_neg h

/-- TICK's answer by the rounded count, once RATE is not 0. -/
theorem exec_tick_of_rate_ne_zero {s : State} (h : s.rate ≠ 0) {ticks : Nat}
    (hticks : ticks = roundNearest Config.tieUp (tickN s)) :
    exec .tick s = .next (also s [
      if ticks = 0 ∨ 65535 < ticks then reply 1 0
      else reply 0 ((0 : BitVec 16) ++ (BitVec.ofNat 16 ticks).extractLsb' 8 8 ++
        (BitVec.ofNat 16 ticks).extractLsb' 0 8)]) := by
  have htick := tick_of_rate_ne_zero h Config.tieUp s.mode
  rw [divisor_eq_tickN, ← hticks] at htick
  rw [exec_tick_eq_also]
  by_cases hrange : ticks = 0 ∨ 65535 < ticks
  · rw [if_pos hrange] at htick ⊢
    rw [tickWord_of_none htick, reply]
  · rw [if_neg hrange] at htick ⊢
    rw [tickWord_of_some htick, reply]

/-! ## The statements -/

/-- Settles O21: RATE 0 has no count; for any other the three cases name the rounded count, which decides the answer. -/
theorem tickByQuotientAndRemainder : Obligations.TickByQuotientAndRemainder := by
  unfold Obligations.TickByQuotientAndRemainder
  exact fun s ticks => ⟨exec_tick_of_rate_zero, fun hrate hcases =>
    exec_tick_of_rate_ne_zero hrate (eq_roundNearest_of_cases hcases)⟩

/-- Settles O28: the response word is a function of RATE and MODE. -/
theorem tickIsAPureQuery : Obligations.TickIsAPureQuery := by
  unfold Obligations.TickIsAPureQuery
  intro s s' hrate hmode
  have htick' := exec_tick_eq_also s'
  rw [← hrate, ← hmode] at htick'
  exact ⟨tickWord s.rate s.mode, exec_tick_eq_also s, htick'⟩

end Sys2Proof.Machine
end

section
/-!
SUPPORT. DECODE (42_decode.md) as the statements write it: the words a chunk is decoded to, the decode loop over a
chunk of whole units, and the answer to a malformed and to a well-formed chunk; then the five statements.
-/

namespace Sys2Proof.Machine

open Sys2Proof.Claims

/-! ## Sample records, in the vocabulary of the statements (30_encoding.md rules R52, R57 and R58) -/

/-- The words that records leave the block as. -/
def outputsOf (recs : List Record) : List Output := recs.map fun r => .sample (recordWord r)

@[simp] theorem outputsOf_append (recs recs' : List Record) :
    outputsOf (recs ++ recs') = outputsOf recs ++ outputsOf recs' := List.map_append

@[simp] theorem length_outputsOf (recs : List Record) : (outputsOf recs).length = recs.length := List.length_map _

/-- The records the statements list for a chunk's bytes from `pos` on (42_decode.md rules R90 to R93). -/
def chunkSamples (m : Mode) (pos : BitVec 17) (bytes : List Byte) : List Output :=
  match m with
  | .oneLow => samples1L bytes
  | .oneHigh => samples1H bytes
  | .twoLow => samples2L bytes
  | .twoHigh => laned (laneOfPos pos) (chunkWords bytes)

@[simp] theorem chunkSamples_nil (m : Mode) (pos : BitVec 17) : chunkSamples m pos [] = [] := by cases m <;> rfl

theorem valOfByte_eq_append (b : Byte) : valOfByte b = (0 : BitVec 8) ++ b :=
  BitVec.setWidth_eq_append (by decide)

/-- Taking a word apart and together again loses nothing. -/
theorem wordOf_fields (w : BitVec 16) : wordOf (sampleField w) (markerField w) = w :=
  sampleField_append_markerField w

/-- The next word of a 2H chunk belongs to the other channel. -/
theorem laneOfPos_add_unitSize (pos : BitVec 17) :
    laneOfPos (pos + BitVec.ofNat 17 (unitSize .twoHigh)) = laneOfPos pos + 1 := by
  apply BitVec.eq_of_toNat_eq
  simp only [laneOfPos, unitSize, BitVec.toNat_add, BitVec.toNat_ofNat, Nat.reducePow, Nat.reduceMod,
    BitVec.reduceToNat]
  omega

/-- The first unit's records come first; those of the rest follow as if the chunk began there. -/
theorem chunkSamples_unit_append {m : Mode} {unit : List Byte} {u : FrameUnit} (hu : decodeUnit m unit = .ok u)
    (pos : BitVec 17) (rest : List Byte) :
    chunkSamples m pos (unit ++ rest) = outputsOf (unitRecords (readOf u) pos) ++
      chunkSamples m (pos + BitVec.ofNat 17 (unitSize m)) rest := by
  unfold decodeUnit at hu
  split at hu <;> cases hu
  case h_1 v =>
    simp only [readOf, unitRecords, valOfByte_eq_append]
    rfl
  case h_4 lo hi =>
    simp only [readOf, unitRecords, wordOf_fields]
    rfl
  case h_8 t c a b =>
    simp only [readOf, unitRecords, valOfByte_eq_append]
    rfl
  case h_14 lo hi =>
    simp only [readOf, unitRecords, wordOf_fields, chunkSamples, laneOfPos_add_unitSize]
    rfl

/-- Two records for each whole quadruple. -/
theorem length_samples2L : ∀ bytes : List Byte, (samples2L bytes).length = 2 * (bytes.length / 4)
  | [] | [_] | [_, _] | [_, _, _] => by simp [samples2L]
  | _ :: _ :: _ :: _ :: rest => by
    simp only [samples2L, List.length_cons, length_samples2L rest]
    omega

/-! ## The decode loop over whole units (42_decode.md rules R84 and R89) -/

theorem unitSize_pos (m : Mode) : 0 < unitSize m := by cases m <;> decide

/-- From any unit boundary the loop runs to LEN and appends just the records of the bytes that were left. -/
theorem unitLoop_ofBytes {n : Nat} {s : State} {bytes : List Byte} (hcb : s.cb = Memory.ofBytes bytes)
    (hlen : bytes.length = s.len.toNat) (hfit : s.pos.toNat + n * unitSize s.mode = bytes.length) :
    ∃ recs, unitLoop n s = .next { s with out := s.out ++ recs, pos := BitVec.ofNat 17 bytes.length } ∧
      outputsOf recs = chunkSamples s.mode s.pos (bytes.drop s.pos.toNat) := by
  induction n generalizing s with
  | zero =>
    have hend : s.pos.toNat = bytes.length := by omega
    refine ⟨[], ?_, ?_⟩
    · rw [← hend, BitVec.ofNat_toNat, BitVec.setWidth_eq, List.append_nil, unitLoop]
    · rw [hend, List.drop_length, chunkSamples_nil]
      rfl
  | succ n ih =>
    have hsize := unitSize_pos s.mode
    rw [Nat.succ_mul] at hfit
    obtain ⟨u, hu, hfetch, hmode⟩ := fetchUnit_ofBytes hcb (by omega)
    have hpos : (s.pos + BitVec.ofNat 17 (unitSize s.mode)).toNat = s.pos.toNat + unitSize s.mode := by
      have := s.len.isLt
      rw [BitVec.toNat_add, BitVec.toNat_ofNat]
      omega
    obtain ⟨recs, hloop, hrecs⟩ := ih (s := { s with
      out := s.out ++ unitRecords (readOf u) s.pos
      pos := s.pos + BitVec.ofNat 17 (unitSize s.mode) }) hcb hlen (by simp only [hpos]; omega)
    refine ⟨unitRecords (readOf u) s.pos ++ recs, ?_, ?_⟩
    · rw [unitLoop_succ (by omega) hfetch, hmode, hloop, List.append_assoc]
    · rw [outputsOf_append, hrecs, hpos, ← List.drop_drop, ← chunkSamples_unit_append hu, List.take_append_drop]

/-! ## The two checks (42_decode.md rules R86 and R95) -/

theorem unitBytes_eq_unitSize (m : Mode) : unitBytes m = unitSize m := by cases m <;> rfl

/-- A chunk length below 65536 is what its LEN says (10_state.md rule R25). -/
theorem eq_toNat_ofNat_of_lt {n : Nat} (h : n < 65536) : n = (BitVec.ofNat 16 n).toNat := by
  rw [BitVec.toNat_ofNat, Nat.mod_eq_of_lt h]

/-- Whole units are well formed unless the token check applies and fails. -/
theorem not_malformed_of_tokensEqual {s : State} {bytes : List Byte}
    (hunits : bytes.length % unitBytes s.mode = 0)
    (htokens : s.mode = .twoLow → s.strict = true → tokensEqual s.token bytes) : ¬ malformed s bytes := by
  rintro (hbad | ⟨hmode, hstrict, hwrong⟩)
  · exact hbad hunits
  · exact hwrong (htokens hmode hstrict)

theorem tokensEqual_nil (token : Byte) : tokensEqual token [] := fun q hq => absurd hq (Nat.not_lt_zero (4 * q))

section Chunk

variable {s : State} {len : BitVec 16} {bytes : List Byte}

theorem lengthOk_iff (hlen : bytes.length = len.toNat) (m : Mode) :
    lengthOk m len = true ↔ bytes.length % unitBytes m = 0 := by
  rw [lengthOk, decide_eq_true_iff, unitBytes_eq_unitSize, hlen]

theorem tokensMatch_ofBytes_iff (hlen : bytes.length = len.toNat) (hquads : bytes.length % 4 = 0) (token : Byte) :
    tokensMatch token (Memory.ofBytes bytes) len = true ↔ tokensEqual token bytes := by
  have hlt (q : Nat) : q < len.toNat / 4 ↔ 4 * q < bytes.length := by omega
  simp only [tokensMatch, List.all_eq_true, List.mem_range, decide_eq_true_iff, Memory.read_ofBytes, hlt,
    tokensEqual]

/-- The token check fails on a chunk of whole units exactly for the second reason of `malformed`. -/
theorem tokenMismatch_iff (hcb : s.cb = Memory.ofBytes bytes) (hlen : bytes.length = len.toNat)
    (hunits : bytes.length % unitBytes s.mode = 0) :
    tokenMismatch s len = true ↔ s.mode = .twoLow ∧ s.strict = true ∧ ¬ tokensEqual s.token bytes := by
  rw [tokenMismatch, Bool.and_eq_true, Bool.and_eq_true, decide_eq_true_iff, and_assoc, hcb]
  refine and_congr_right fun hmode => and_congr_right fun _ => ?_
  rw [hmode] at hunits
  rw [← tokensMatch_ofBytes_iff hlen hunits, Bool.not_eq_true', Bool.not_eq_true]

/-! ## DECODE of a chunk of LEN bytes (42_decode.md rules R82 and R83) -/

/-- A DECODE that is rejected, in the vocabulary of the statements. -/
theorem closeChunk_raise_malformed {e : BlockError} (he : errorCode e = .malformedFrame) (s : State) :
    closeChunk (raise e (setLock s)) =
      afterDecode { s with mfcnt := counted s.mfcnt } [reply 2 (errorInfo e)] := by
  rw [raise_eq_of_malformed e _ he, ← countMalformed_mfcnt_eq_counted]
  rfl

/-- A DECODE that succeeds, in the vocabulary of the statements. -/
theorem completeDecode_eq_afterDecode (recs : List Record) (pos : BitVec 17) (s : State) :
    completeDecode { openChunk len (setLock s) with out := recs, pos := pos } =
      afterDecode s (outputsOf recs ++ [reply 0 (BitVec.ofNat 32 recs.length)]) := by
  rw [afterDecode, ← List.append_assoc]
  rfl

/-- A DECODE whose chunk was presented runs; it refuses nothing. -/
theorem exec_decode_ofBytes (hcb : s.cb = Memory.ofBytes bytes) (hlen : bytes.length = len.toNat) :
    exec (.decode len) s = decodeChunk len (setLock s) :=
  if_pos (by rw [hcb, Memory.holdsExactly_ofBytes, decide_eq_true hlen])

theorem exec_decode_of_badLength (hcb : s.cb = Memory.ofBytes bytes) (hlen : bytes.length = len.toNat)
    (hbad : bytes.length % unitBytes s.mode ≠ 0) :
    exec (.decode len) s = .next (afterDecode { s with mfcnt := counted s.mfcnt } [reply 2 0]) := by
  have hlength : lengthOk s.mode len = false := by rwa [← Bool.not_eq_true, lengthOk_iff hlen]
  calc exec (.decode len) s
      = decodeChunk len (setLock s) := exec_decode_ofBytes hcb hlen
    _ = .next (closeChunk (raise .malformedLength (setLock s))) := if_pos hlength
    _ = _ := congrArg Host.Outcome.next (closeChunk_raise_malformed rfl s)

theorem exec_decode_of_badToken (hcb : s.cb = Memory.ofBytes bytes) (hlen : bytes.length = len.toNat)
    (hunits : bytes.length % unitBytes s.mode = 0)
    (hbad : s.mode = .twoLow ∧ s.strict = true ∧ ¬ tokensEqual s.token bytes) :
    exec (.decode len) s = .next (afterDecode { s with mfcnt := counted s.mfcnt } [reply 2 1]) := by
  have hlength : ¬ lengthOk s.mode len = false := by rwa [Bool.not_eq_false, lengthOk_iff hlen]
  have htoken : tokenMismatch s len = true := (tokenMismatch_iff hcb hlen hunits).mpr hbad
  calc exec (.decode len) s
      = decodeChunk len (setLock s) := exec_decode_ofBytes hcb hlen
    _ = .next (closeChunk (raise .malformedToken (setLock s))) := (if_neg hlength).trans (if_pos htoken)
    _ = _ := congrArg Host.Outcome.next (closeChunk_raise_malformed rfl s)

/-- All that a well-formed chunk is answered with: its records, then OK with their number. -/
def chunkAnswer (m : Mode) (bytes : List Byte) : List Output :=
  chunkSamples m 0 bytes ++ [reply 0 (BitVec.ofNat 32 (chunkSamples m 0 bytes).length)]

theorem exec_decode_of_not_malformed (hcb : s.cb = Memory.ofBytes bytes) (hlen : bytes.length = len.toNat)
    (hok : ¬ malformed s bytes) :
    exec (.decode len) s = .next (afterDecode s (chunkAnswer s.mode bytes)) := by
  obtain ⟨hunits, htokens⟩ := not_or.mp hok
  rw [not_not] at hunits
  have hlength : ¬ lengthOk s.mode len = false := by rwa [Bool.not_eq_false, lengthOk_iff hlen]
  have htoken : ¬ tokenMismatch (setLock s) len = true := mt (tokenMismatch_iff hcb hlen hunits).mp htokens
  have hfit : 0 + len.toNat / unitSize s.mode * unitSize s.mode = bytes.length := by
    rw [Nat.zero_add, ← hlen, ← unitBytes_eq_unitSize, Nat.div_mul_cancel (Nat.dvd_of_mod_eq_zero hunits)]
  obtain ⟨recs, hloop, hrecs⟩ := unitLoop_ofBytes (s := openChunk len (setLock s)) hcb hlen hfit
  have hrecs : outputsOf recs = chunkSamples s.mode 0 bytes := hrecs
  calc exec (.decode len) s
      = decodeChunk len (setLock s) := exec_decode_ofBytes hcb hlen
    _ = .next (completeDecode { openChunk len (setLock s) with
          out := recs, pos := BitVec.ofNat 17 bytes.length }) := by
        rw [decodeChunk, setLock_mode, if_neg hlength, if_neg htoken, hloop]
        rfl
    _ = _ := by rw [completeDecode_eq_afterDecode, ← length_outputsOf, hrecs]; rfl

/-- The data of a rejected chunk's response: the length is checked first (42_decode.md rules R86
and R95). -/
def rejectCause (m : Mode) (bytes : List Byte) : BitVec 32 := if bytes.length % unitBytes m = 0 then 1 else 0

theorem exec_decode_of_malformed (hcb : s.cb = Memory.ofBytes bytes) (hlen : bytes.length = len.toNat)
    (hbad : malformed s bytes) :
    exec (.decode len) s =
      .next (afterDecode { s with mfcnt := counted s.mfcnt } [reply 2 (rejectCause s.mode bytes)]) := by
  rw [rejectCause]
  split
  case isTrue hunits => exact exec_decode_of_badToken hcb hlen hunits (hbad.resolve_left (not_not.mpr hunits))
  case isFalse hunits => exact exec_decode_of_badLength hcb hlen hunits

/-- DECODE is a function of CFG, TOKEN and the chunk (42_decode.md rule R85): with the same three, every state gets
the same words and moves MFCNT alike. -/
theorem exec_decode_answer (s : State) (hlen : bytes.length = len.toNat) :
    ∃ (outs : List Output) (count : BitVec 32 → BitVec 32), (count = id ∨ count = counted) ∧
      ∀ s' : State, s'.mode = s.mode → s'.strict = s.strict → s'.token = s.token →
        s'.cb = Memory.ofBytes bytes →
        exec (.decode len) s' = .next (afterDecode { s' with mfcnt := count s'.mfcnt } outs) := by
  by_cases hbad : malformed s bytes
  · refine ⟨[reply 2 (rejectCause s.mode bytes)], counted, .inr rfl, fun s' hmode hstrict htoken hcb => ?_⟩
    rw [← hmode]
    exact exec_decode_of_malformed hcb hlen (by rwa [malformed, hmode, hstrict, htoken])
  · refine ⟨chunkAnswer s.mode bytes, id, .inl rfl, fun s' hmode hstrict htoken hcb => ?_⟩
    rw [← hmode]
    exact exec_decode_of_not_malformed hcb hlen (by rwa [malformed, hmode, hstrict, htoken])

end Chunk

/-! ## The packed patterns (42_decode.md rule R100) -/

theorem valsOf_append (outs outs' : List Output) : valsOf (outs ++ outs') = valsOf outs ++ valsOf outs' := by
  induction outs with
  | nil => rfl
  | cons o outs ih => cases o <;> simp [valsOf, ih]

@[simp] theorem valsOf_cons_sr (lane : BitVec 1) (mk : BitVec 4) (val : BitVec 16) (outs : List Output) :
    valsOf (sr lane mk val :: outs) = val :: valsOf outs :=
  congrArg (· :: valsOf outs) (extract_append_low (lane ++ mk) val)

theorem valsOf_map_sr {α : Type} (lane : α → BitVec 1) (mk : α → BitVec 4) (val : α → BitVec 16) (xs : List α) :
    valsOf (xs.map fun x => sr (lane x) (mk x) (val x)) = xs.map val := by
  induction xs with
  | nil => rfl
  | cons x xs ih => rw [List.map_cons, valsOf_cons_sr, ih, List.map_cons]

theorem valsOf_laned (lane : BitVec 1) (ws : List (BitVec 16)) :
    valsOf (laned lane ws) = ws.map (· &&& 0xFFF0) := by
  induction ws generalizing lane with
  | nil => rfl
  | cons w ws ih => rw [laned, valsOf_cons_sr, ih, List.map_cons]

theorem valsOf_samples1L (bytes : List Byte) : valsOf (samples1L bytes) = bytes.map (·.setWidth 16) := by
  rw [samples1L, valsOf_map_sr]
  exact List.map_congr_left fun b _ => (valOfByte_eq_append b).symm

/-- Both 12-bit variants mask every word; they differ in the lanes alone. -/
theorem valsOf_chunkSamples_words {m : Mode} (hm : m = .oneHigh ∨ m = .twoHigh) (pos : BitVec 17)
    (bytes : List Byte) : valsOf (chunkSamples m pos bytes) = (chunkWords bytes).map (· &&& 0xFFF0) := by
  obtain rfl | rfl := hm
  · exact valsOf_map_sr _ _ _ (chunkWords bytes)
  · exact valsOf_laned _ _

/-- A packed word is its value with the marker set in the low nibble. -/
theorem packed_word_eq_or (v : BitVec 16) (m : BitVec 4) :
    v.extractLsb' 8 8 ++ (v.extractLsb' 0 8 ||| m.setWidth 8) = v ||| (0#8 ++ m.setWidth 8) :=
  calc v.extractLsb' 8 8 ++ (v.extractLsb' 0 8 ||| m.setWidth 8)
      = (v.extractLsb' 8 8 ||| 0#8) ++ (v.extractLsb' 0 8 ||| m.setWidth 8) := by rw [BitVec.or_zero]
    _ = (v.extractLsb' 8 8 ++ v.extractLsb' 0 8) ||| (0#8 ++ m.setWidth 8) := BitVec.or_append.symm
    _ = v ||| (0#8 ++ m.setWidth 8) := by rw [append_extract_extract (n := 8) (m := 8) v]

theorem marker_masked (m : BitVec 4) : (0#8 ++ m.setWidth 8 : BitVec 16) &&& 0xFFF0 = 0#16 := by
  revert m
  decide

/-- The mask keeps a value whose low nibble is clear and clears the marker packed with it. -/
theorem packed_word_masked {v : BitVec 16} (hv : v &&& 0x000F = 0#16) (m : BitVec 4) :
    (v.extractLsb' 8 8 ++ (v.extractLsb' 0 8 ||| m.setWidth 8) : BitVec 16) &&& 0xFFF0 = v :=
  calc (v.extractLsb' 8 8 ++ (v.extractLsb' 0 8 ||| m.setWidth 8) : BitVec 16) &&& 0xFFF0
      = v &&& 0xFFF0 := by rw [packed_word_eq_or, BitVec.and_or_distrib_right, marker_masked, BitVec.or_zero]
    _ = v &&& 0xFFF0 ||| v &&& 0x000F := by rw [hv, BitVec.or_zero]
    _ = v := BitVec.and_or_distrib_left.symm.trans BitVec.and_allOnes

theorem masked_chunkWords_packWords {vms : List (BitVec 16 × BitVec 4)} (hv : ∀ p ∈ vms, p.1 &&& 0x000F = 0) :
    (chunkWords (packWords vms)).map (· &&& 0xFFF0) = vms.map Prod.fst := by
  induction vms with
  | nil => rfl
  | cons p vms ih =>
    obtain ⟨hp, hvms⟩ := List.forall_mem_cons.mp hv
    rw [packWords, chunkWords, List.map_cons, packed_word_masked hp, ih hvms, List.map_cons]

theorem valsOf_samples2L_packQuads (quads : List (Byte × Byte × Byte × Byte)) :
    valsOf (samples2L (packQuads quads)) =
      quads.flatMap fun (_, _, a, b) => [a.setWidth 16, b.setWidth 16] := by
  induction quads with
  | nil => rfl
  | cons q quads ih =>
    rw [packQuads, samples2L, valsOf_cons_sr, valsOf_cons_sr, ih, ← valOfByte_eq_append, ← valOfByte_eq_append]
    rfl

theorem length_packWords (vms : List (BitVec 16 × BitVec 4)) : (packWords vms).length = 2 * vms.length := by
  induction vms with
  | nil => rfl
  | cons p vms ih => rw [packWords, List.length_cons, List.length_cons, List.length_cons, ih]; omega

theorem length_packQuads (quads : List (Byte × Byte × Byte × Byte)) :
    (packQuads quads).length = 4 * quads.length := by
  induction quads with
  | nil => rfl
  | cons q quads ih => simp only [packQuads, List.length_cons, ih]; omega

/-- The `val` fields that a DECODE of a well-formed chunk delivers are those of the chunk's records. -/
theorem exec_decode_vals {s : State} {bytes : List Byte} {n : Nat} (hn : bytes.length = n) (hlt : n < 65536)
    (hcb : s.cb = Memory.ofBytes bytes) (hok : ¬ malformed s bytes) :
    ∃ t outs, exec (.decode (BitVec.ofNat 16 n)) s = .next t ∧ t.delivered = s.delivered ++ outs ∧
      valsOf outs = valsOf (chunkSamples s.mode 0 bytes) := by
  refine ⟨_, _, exec_decode_of_not_malformed hcb (hn.trans (eq_toNat_ofNat_of_lt hlt)) hok, rfl, ?_⟩
  rw [chunkAnswer, valsOf_append]
  exact List.append_nil _

/-! ## One chunk after another (42_decode.md rule R88) -/

/-- The host's DECODE of a chunk: the step puts the chunk in the buffer and runs DECODE with its length. -/
theorem step_decodeMove {s : State} {bytes : List Byte} {rest : List HostMove}
    (hpending : s.pending = decodeMove bytes :: rest) :
    step s = exec (.decode (BitVec.ofNat 16 bytes.length))
      { s with pending := rest, cb := Memory.ofBytes bytes } := by
  rw [step_command hpending, decodeCommand_commandWord_decode,
    extract_low_ofNat 16 bytes.length 32 (by decide), takeCommand_eq, opField_commandWord, if_pos rfl]

theorem step_decodeMove_of_malformed {s : State} {bytes : List Byte} {rest : List HostMove}
    (hlt : bytes.length < 65536) (hpending : s.pending = decodeMove bytes :: rest) (hbad : malformed s bytes) :
    step s = .next (afterDecode { s with pending := rest, mfcnt := counted s.mfcnt }
      [reply 2 (rejectCause s.mode bytes)]) :=
  (step_decodeMove hpending).trans (exec_decode_of_malformed rfl (eq_toNat_ofNat_of_lt hlt) hbad)

/-! ## The statements -/

/-- Settles O43: in each variant the chunk's records have the packed values, by induction over the pattern. -/
theorem packedValuesDecodeBack : Obligations.PackedValuesDecodeBack := by
  unfold Obligations.PackedValuesDecodeBack
  refine fun s => ⟨fun vals hlt hmode hcb => ?_, fun vms hlt hmode hv hcb => ?_,
    fun quads hlt hmode hstrict hcb => ?_⟩
  · have hunits : vals.length % unitBytes s.mode = 0 := by rw [hmode]; exact Nat.mod_one _
    have hok : ¬ malformed s vals := not_malformed_of_tokensEqual hunits (by simp [hmode])
    have h := exec_decode_vals rfl hlt hcb hok
    rwa [hmode, chunkSamples, valsOf_samples1L] at h
  · have hunits : (packWords vms).length % unitBytes s.mode = 0 := by
      rw [length_packWords]
      obtain h | h := hmode <;> simp [h, unitBytes]
    have hnotQuads : s.mode ≠ .twoLow := by obtain h | h := hmode <;> simp [h]
    have hok : ¬ malformed s (packWords vms) :=
      not_malformed_of_tokensEqual hunits fun hmode' => absurd hmode' hnotQuads
    have h := exec_decode_vals (length_packWords vms) hlt hcb hok
    rwa [valsOf_chunkSamples_words hmode, masked_chunkWords_packWords hv] at h
  · have hunits : (packQuads quads).length % unitBytes s.mode = 0 := by
      rw [length_packQuads, hmode]
      exact Nat.mul_mod_right 4 quads.length
    have hok : ¬ malformed s (packQuads quads) := not_malformed_of_tokensEqual hunits (by simp [hstrict])
    have h := exec_decode_vals (length_packQuads quads) hlt hcb hok
    rwa [hmode, chunkSamples, valsOf_samples2L_packQuads] at h

/-- Settles O33: the length check's answer. -/
theorem decodeRejectsBadLength : Obligations.DecodeRejectsBadLength := by
  unfold Obligations.DecodeRejectsBadLength
  exact fun s bytes hlt hcb hbad => exec_decode_of_badLength hcb (eq_toNat_ofNat_of_lt hlt) hbad

/-- Settles O34: the token check's answer, and that of a well-formed chunk. -/
theorem strictTokenCheck : Obligations.StrictTokenCheck := by
  unfold Obligations.StrictTokenCheck
  intro s bytes hlt hcb hmode hquads
  have hlen := eq_toNat_ofNat_of_lt hlt
  have hunits : bytes.length % unitBytes s.mode = 0 := by rwa [hmode]
  refine ⟨fun hstrict htokens => exec_decode_of_badToken hcb hlen hunits ⟨hmode, hstrict, htokens⟩,
    fun htokens => ?_⟩
  have hok : ¬ malformed s bytes := not_malformed_of_tokensEqual hunits fun _ => htokens
  have hcount : (samples2L bytes).length = bytes.length / 2 := by
    rw [length_samples2L]
    omega
  rw [exec_decode_of_not_malformed hcb hlen hok, hmode, chunkAnswer, chunkSamples, hcount]

/-- Settles O41: the bad chunk changes none of what the answer to the good one depends on. -/
theorem nextChunkUnaffectedByMalformedOne : Obligations.NextChunkUnaffectedByMalformedOne := by
  unfold Obligations.NextChunkUnaffectedByMalformedOne
  intro s bad good rest hbadLt hgoodLt hpending hbad
  obtain ⟨outs, count, _, hanswer⟩ := exec_decode_answer s (eq_toNat_ofNat_of_lt hgoodLt)
  have hafter {s' : State} (hpending' : s'.pending = decodeMove good :: rest) (hmode : s'.mode = s.mode)
      (hstrict : s'.strict = s.strict) (htoken : s'.token = s.token) :=
    (step_decodeMove hpending').trans (hanswer _ hmode hstrict htoken rfl)
  exact ⟨_, _, _, outs, rejectCause s.mode bad, step_decodeMove_of_malformed hbadLt hpending hbad, rfl, rfl,
    hafter rfl rfl rfl rfl, hafter rfl rfl rfl rfl, rfl, rfl⟩

/-- Settles O35: the empty chunk is well formed in every mode and has no records. -/
theorem emptyChunkSucceeds : Obligations.EmptyChunkSucceeds := by
  unfold Obligations.EmptyChunkSucceeds
  intro s hcb
  have hok : ¬ malformed s [] :=
    not_malformed_of_tokensEqual (Nat.zero_mod _) fun _ _ => tokensEqual_nil s.token
  rw [exec_decode_of_not_malformed (bytes := []) hcb rfl hok, chunkAnswer, chunkSamples_nil]
  rfl

end Sys2Proof.Machine
end

section
/-!
SUPPORT. Errors (60_exceptions.md): what a command word runs, how a DECODE and every other instruction can end, and what
the last word delivered says of the end; then the statement that errors are precise.
-/

namespace Sys2Proof.Machine

open Sys2Proof.Claims

/-! ## What a command word runs (30_encoding.md rules R45 and R51) -/

/-- A frame unit comes out of a chunk, never off the command port. -/
theorem decodeCommand_ne_toInstr (cw : CommandWord) (u : FrameUnit) : decodeCommand cw ≠ u.toInstr := by
  unfold decodeCommand
  split <;> cases u <;> exact Instr.noConfusion

theorem decodeCommand_ne_decode {cw : CommandWord} (hop : opField cw ≠ 0x4) (len : BitVec 16) :
    decodeCommand cw ≠ .decode len := by
  unfold decodeCommand
  split
  case h_5 h4 => exact absurd (BitVec.eq_of_toNat_eq h4) hop
  all_goals exact Instr.noConfusion

/-- A command word runs DECODE on the presented chunk, or, with the buffer as it was, an instruction that is neither
DECODE nor a frame unit. -/
theorem step_command_cases {s : State} {cw : CommandWord} {chunk : List Byte} {rest : List HostMove}
    (h : s.pending = .command cw chunk :: rest) :
    step s = execDecode (lenField cw) { s with pending := rest, cb := Memory.ofBytes chunk } ∨
    ∃ i, (∀ len, i ≠ .decode len) ∧ (∀ u : FrameUnit, i ≠ u.toInstr) ∧
      step s = exec i { s with pending := rest } := by
  rw [step_command h, takeCommand_eq]
  by_cases hop : opField cw = 0x4
  · rw [(decodeCommand_eq_decode_iff cw).mpr hop, if_pos hop]
    exact .inl rfl
  · rw [if_neg hop]
    exact .inr ⟨_, decodeCommand_ne_decode hop, decodeCommand_ne_toInstr cw, rfl⟩

/-! ## How an instruction other than DECODE ends (60_exceptions.md rule R102) -/

/-- `i` delivers one response, whose code is not that of MalformedFrame, and changes nothing else. -/
def OnlyAnswers (i : Instr) (s : State) : Prop :=
  ∃ code data, code ≠ 2 ∧ exec i s = .next (also s [reply code data])

/-- `i` delivers OK and no other word; it may write registers (`w` is the state with them written). -/
def WritesThenOk (i : Instr) (s : State) : Prop :=
  ∃ w data, w.delivered = s.delivered ∧ exec i s = .next (also w [reply 0 data])

theorem exec_wr_onlyAnswers_or_writesThenOk (addr : BitVec 4) (data : BitVec 32) (s : State) :
    OnlyAnswers (.wr addr data) s ∨ WritesThenOk (.wr addr data) s := by
  obtain hreserved | hreadOnly | hconfig : 5 ≤ addr.toNat ∨ (addr = 3 ∨ addr = 4) ∨ addr.toNat < 3 := by bv_omega
  · exact .inl ⟨4, 1, by decide, exec_wr_of_reserved hreserved data s⟩
  · exact .inl ⟨4, 2, by decide, exec_wr_of_readOnly hreadOnly data s⟩
  · cases hlock : s.lock with
    | true => exact .inl ⟨3, 0, by decide, exec_wr_of_locked hconfig hlock data⟩
    | false =>
      right
      obtain rfl | rfl | rfl := addr_eq_of_lt_three hconfig
      · exact ⟨writeCfg data s, 0, rfl, exec_wr_cfg_of_unlocked hlock data⟩
      · exact ⟨writeToken data s, 0, rfl, exec_wr_token_of_unlocked hlock data⟩
      · exact ⟨writeRate data s, 0, rfl, exec_wr_rate_of_unlocked hlock data⟩

theorem exec_rd_onlyAnswers (addr : BitVec 4) (s : State) : OnlyAnswers (.rd addr) s := by
  cases hreg : regOfNumber addr with
  | none => exact ⟨4, 1, by decide, exec_rd_of_reserved ((regOfNumber_eq_none_iff addr).mp hreg) s⟩
  | some r => exact ⟨0, readReg r s, by decide, exec_rd_of_regOfNumber hreg s⟩

theorem exec_tick_onlyAnswers (s : State) : OnlyAnswers .tick s := by
  obtain ⟨_, herr⟩ | ⟨high, low, _, hok⟩ := execTick_cases s
  · exact ⟨1, 0, by decide, herr.trans (congrArg Host.Outcome.next (raise_eq_also (by decide) s))⟩
  · exact ⟨0, 0 ++ high ++ low, by decide, hok⟩

/-- Only WR and RST write registers, and neither does so when it reports an error. -/
theorem exec_onlyAnswers_or_writesThenOk {i : Instr} (hdecode : ∀ len, i ≠ .decode len)
    (hunit : ∀ u : FrameUnit, i ≠ u.toInstr) (s : State) : OnlyAnswers i s ∨ WritesThenOk i s := by
  cases i with
  | nop => exact .inl ⟨0, 0, by decide, exec_nop s⟩
  | wr addr data => exact exec_wr_onlyAnswers_or_writesThenOk addr data s
  | rd addr => exact .inl (exec_rd_onlyAnswers addr s)
  | tick => exact .inl (exec_tick_onlyAnswers s)
  | decode len => exact absurd rfl (hdecode len)
  | rst => exact .inr ⟨resetRegisters s, 0, rfl, exec_rst s⟩
  | reserved67 op => exact .inl ⟨4, 0, by decide, exec_reserved67 op s⟩
  | reserved8F op => exact .inl ⟨4, 0, by decide, exec_reserved8F op s⟩
  | unit1L v => exact absurd rfl (hunit (.byte1L v))
  | unit1H v m => exact absurd rfl (hunit (.word1H v m))
  | unit2L t c a b => exact absurd rfl (hunit (.quad2L t c a b))
  | unit2H v m => exact absurd rfl (hunit (.word2H v m))

/-! ## How a DECODE ends (42_decode.md rules R82 and R87) -/

/-- MalformedFrame and no records, or the records and OK, whatever the buffer held. -/
theorem execDecode_eq_afterDecode {len : BitVec 16} {s t : State} (h : execDecode len s = .next t) :
    (∃ cause, t = afterDecode { s with mfcnt := counted s.mfcnt } [reply 2 cause]) ∨
    ∃ recs, t = afterDecode s (outputsOf recs ++ [reply 0 (BitVec.ofNat 32 recs.length)]) := by
  obtain ⟨_, ⟨_, rfl⟩ | ⟨_, _, rfl⟩ | ⟨_, _, recs, p, _, rfl⟩⟩ := execDecode_cases h
  · exact .inl ⟨_, closeChunk_raise_malformed rfl s⟩
  · exact .inl ⟨_, closeChunk_raise_malformed rfl s⟩
  · exact .inr ⟨recs, completeDecode_eq_afterDecode recs p s⟩

/-! ## Reading the end off the last word delivered -/

theorem rw_code (code : BitVec 8) (data : BitVec 32) : (rw code data).extractLsb' 32 8 = code :=
  extract_append_high code data

/-- The words one command delivers are determined by what was delivered before and after it. -/
theorem delivered_last_inj {before outs outs' : List Output} {w : ResponseWord} {code : BitVec 8} {data : BitVec 32}
    (h : before ++ (outs' ++ [reply code data]) = before ++ outs ++ [.response w]) :
    outs' = outs ∧ w = rw code data := by
  rw [List.append_assoc] at h
  obtain ⟨houts, hlast⟩ := List.append_inj' (List.append_cancel_left h) rfl
  cases hlast
  exact ⟨houts, rfl⟩

/-! ## The statement -/

/-- Settles O49: the last word's code tells which end the command had, and that end fixes the whole next state. -/
theorem errorsArePrecise : Obligations.ErrorsArePrecise := by
  unfold Obligations.ErrorsArePrecise
  intro s t cw chunk rest outs w hpending hstep hdelivered herror
  obtain hdecode | ⟨i, hdecode, hunit, hexec⟩ := step_command_cases hpending
  · obtain ⟨cause, rfl⟩ | ⟨recs, rfl⟩ := execDecode_eq_afterDecode (hdecode.symm.trans hstep)
    · obtain ⟨rfl, rfl⟩ := delivered_last_inj (outs' := []) hdelivered
      exact ⟨rfl, fun _ => rfl, fun hother => absurd (rw_code 2 cause) hother⟩
    · obtain ⟨_, rfl⟩ := delivered_last_inj hdelivered
      exact absurd (rw_code 0 _) herror
  · obtain ⟨code, data, hcode, hend⟩ | ⟨w', data, hw', hend⟩ := exec_onlyAnswers_or_writesThenOk hdecode hunit _
    · cases (hexec.trans hend).symm.trans hstep
      obtain ⟨rfl, rfl⟩ := delivered_last_inj (outs' := []) hdelivered
      exact ⟨rfl, fun hmalformed => absurd ((rw_code code data).symm.trans hmalformed) hcode, fun _ => rfl⟩
    · cases (hexec.trans hend).symm.trans hstep
      rw [also, hw'] at hdelivered
      obtain ⟨_, rfl⟩ := delivered_last_inj (outs' := []) hdelivered
      exact absurd (rw_code 0 data) herror

end Sys2Proof.Machine
end

section
/-!
SUPPORT. Reset (70_reset_and_hazards.md): the step that takes the reset input, what each register reads at reset, and
DECODE in mode 1L, which reset selects; then the two statements.
-/

namespace Sys2Proof.Machine

open Sys2Proof.Claims

/-! ## Taking the reset input (70_reset_and_hazards.md rule R115) -/

theorem step_reset {s : State} {rest : List HostMove} (h : s.pending = .reset :: rest) :
    step s = .next (takeReset rest s) := by
  rw [step, h]

/-! ## After reset (70_reset_and_hazards.md rule R118) -/

theorem readReg_reset (r : RegName) : readReg r State.reset = 0 := by cases r <;> rfl

/-- Mode 1L rejects no chunk: every length is a whole number of units and STRICT does not apply (42_decode.md rules
R86 and R95). -/
theorem not_malformed_of_oneLow {s : State} (hmode : s.mode = .oneLow) (bytes : List Byte) : ¬ malformed s bytes :=
  not_malformed_of_tokensEqual (by rw [hmode]; exact Nat.mod_one _) (by simp [hmode])

/-- DECODE in mode 1L delivers one record for each byte, then OK with their number (42_decode.md rule R90). -/
theorem exec_decode_of_oneLow {s : State} {len : BitVec 16} {bytes : List Byte} (hcb : s.cb = Memory.ofBytes bytes)
    (hlen : bytes.length = len.toNat) (hmode : s.mode = .oneLow) :
    exec (.decode len) s =
      .next (afterDecode s (samples1L bytes ++ [reply 0 (BitVec.ofNat 32 bytes.length)])) := by
  have hcount : (samples1L bytes).length = bytes.length := List.length_map _
  rw [exec_decode_of_not_malformed hcb hlen (not_malformed_of_oneLow hmode bytes), hmode, chunkAnswer, chunkSamples,
    hcount]

/-! ## The statements -/

/-- Settles O14: at reset the mode is 1L, RATE is 0, and every register that exists reads 0. -/
theorem usableStraightAfterReset : Obligations.UsableStraightAfterReset := by
  unfold Obligations.UsableStraightAfterReset
  refine ⟨fun bytes hlt => ?decode, exec_tick_of_rate_zero rfl, fun addr haddr => ?rd⟩
  case decode => exact exec_decode_of_oneLow rfl (eq_toNat_ofNat_of_lt hlt) rfl
  case rd =>
    have hexists : regOfNumber addr ≠ none := mt (regOfNumber_eq_none_iff addr).mp (by omega)
    obtain ⟨r, hreg⟩ := Option.ne_none_iff_exists'.mp hexists
    exact exec_rd_eq_also hreg (readReg_reset r)

/-- Settles O11: the reset input and RST both run `resetRegisters`, and only RST responds. -/
theorem resetInputResetsEveryRegister : Obligations.ResetInputResetsEveryRegister := by
  unfold Obligations.ResetInputResetsEveryRegister
  exact ⟨fun _ _ hpending => step_reset hpending, exec_rst⟩

end Sys2Proof.Machine
end

section
/-!
SUPPORT. Encoding (30_encoding.md): the decoder after the encoder and the encoder after the decoder, field by field of a
command word; then the six statements about bits and instructions.
-/

namespace Sys2Proof.Machine

open Sys2Proof.Claims

/-! ## Decoding an encoding (30_encoding.md rules R44, R45 and R47) -/

theorem decodeCommand_commandWord_reserved67 {op : BitVec 4} (hop : (Instr.reserved67 op).wellFormed = true)
    (addr : BitVec 4) (data : BitVec 32) : decodeCommand (commandWord op addr data) = .reserved67 op := by
  have hrange : 6 ≤ op.toNat ∧ op.toNat ≤ 7 := of_decide_eq_true hop
  have hcodes : op = 0x6 ∨ op = 0x7 := by bv_omega
  have hfield : opField (commandWord op addr data) = op := opField_commandWord op addr data
  exact (decodeCommand_of_op_6_or_7 (hfield.symm ▸ hcodes)).trans (congrArg Instr.reserved67 hfield)

theorem decodeCommand_commandWord_reserved8F {op : BitVec 4} (hop : (Instr.reserved8F op).wellFormed = true)
    (addr : BitVec 4) (data : BitVec 32) : decodeCommand (commandWord op addr data) = .reserved8F op := by
  have hrange : 8 ≤ op.toNat := of_decide_eq_true hop
  have hfield : opField (commandWord op addr data) = op := opField_commandWord op addr data
  exact (decodeCommand_of_8_le_op (hfield.symm ▸ hrange)).trans (congrArg Instr.reserved8F hfield)

/-- LEN comes back from the data field that the encoder zero-extends it to. -/
theorem extract_low_setWidth (len : BitVec 16) : (len.setWidth 32).extractLsb' 0 16 = len := by
  rw [BitVec.setWidth_eq_append (by decide)]
  exact extract_append_low _ len

/-- A W2 unit's two bytes decode to its fields, under either 12-bit mode (30_encoding.md rules R54 and R56). -/
theorem decodeUnit_wordBytes (v : BitVec 12) (m : BitVec 4) :
    decodeUnit .oneHigh [wordLowByte v m, wordHighByte v] = .ok (.word1H v m) ∧
      decodeUnit .twoHigh [wordLowByte v m, wordHighByte v] = .ok (.word2H v m) := by
  simp only [decodeUnit, leWord_of_bytes, sampleField_append, markerField_append, and_self]

theorem decode_encode {i : Instr} (hi : i.wellFormed = true) : decode (encode i) = .ok i := by
  cases i with
  | nop => exact congrArg Except.ok (decodeCommand_commandWord_nop 0 0)
  | wr addr data => exact congrArg Except.ok (decodeCommand_commandWord_wr addr data)
  | rd addr => exact congrArg Except.ok (decodeCommand_commandWord_rd addr 0)
  | tick => exact congrArg Except.ok (decodeCommand_commandWord_tick 0 0)
  | decode len =>
    rw [encode, decode, decodeCommand_commandWord_decode, extract_low_setWidth]
  | rst => exact congrArg Except.ok (decodeCommand_commandWord_rst 0 0)
  | reserved67 op => exact congrArg Except.ok (decodeCommand_commandWord_reserved67 hi 0 0)
  | reserved8F op => exact congrArg Except.ok (decodeCommand_commandWord_reserved8F hi 0 0)
  | unit1L v => rfl
  | unit1H v m => exact congrArg (Except.map FrameUnit.toInstr) (decodeUnit_wordBytes v m).1
  | unit2L t c a b => rfl
  | unit2H v m => exact congrArg (Except.map FrameUnit.toInstr) (decodeUnit_wordBytes v m).2

/-! ## Encoding what a command word decodes to (30_encoding.md rule R46) -/

/-- Every 40-bit value is a command word with three fields. -/
theorem commandWord_fields (cw : CommandWord) : commandWord (opField cw) (addrField cw) (dataField cw) = cw := by
  have hhigh : opField cw ++ addrField cw = cw.extractLsb' 32 8 :=
    BitVec.extractLsb'_append_extractLsb'_eq_extractLsb' (by decide)
  rw [commandWord, hhigh]
  exact append_extract_extract (n := 8) (m := 32) cw

/-- Masking a command word masks its fields. -/
theorem commandWord_and (op op' addr addr' : BitVec 4) (data data' : BitVec 32) :
    commandWord op addr data &&& commandWord op' addr' data' =
      commandWord (op &&& op') (addr &&& addr') (data &&& data') :=
  BitVec.and_append.trans (congrArg (· ++ (data &&& data')) BitVec.and_append)

/-- A mask either clears a field or keeps it. -/
theorem field_and_zero {n : Nat} (x : BitVec n) : x &&& 0 = 0 := BitVec.and_zero

theorem field_and_ones (x : BitVec 4) : x &&& 0xF = x := BitVec.and_allOnes

/-- A mask that keeps `op` and clears the rest, which six of the eight rows have. -/
theorem commandWord_and_opMask (op addr : BitVec 4) (data : BitVec 32) :
    commandWord op addr data &&& 0xF000000000 = commandWord op 0 0 := by
  have h := commandWord_and op 0xF addr 0 data 0
  rwa [field_and_zero, field_and_zero, field_and_ones] at h

theorem usedBits_commandWord (op addr : BitVec 4) (data : BitVec 32) :
    usedBits (commandWord op addr data) =
      if op = 1 then 0xFFFFFFFFFF else if op = 2 then 0xFF00000000
      else if op = 4 then 0xF00000FFFF else 0xF000000000 := by
  have hop : (commandWord op addr data).extractLsb' 36 4 = op := opField_commandWord op addr data
  rw [usedBits, hop]

/-- The rows of which no field but `op` is used. -/
theorem and_usedBits_of_opOnly {op : BitVec 4} (h : op ≠ 1 ∧ op ≠ 2 ∧ op ≠ 4) (addr : BitVec 4)
    (data : BitVec 32) :
    commandWord op addr data &&& usedBits (commandWord op addr data) = commandWord op 0 0 := by
  obtain ⟨hwr, hrd, hdecode⟩ := h
  rw [usedBits_commandWord, if_neg hwr, if_neg hrd, if_neg hdecode, commandWord_and_opMask]

/-- The low 16 bits of `data`, zero-extended again, are `data` masked to them. -/
theorem and_usedBits_decode (addr : BitVec 4) (data : BitVec 32) :
    commandWord 0x4 addr data &&& usedBits (commandWord 0x4 addr data) =
      commandWord 0x4 0 ((data.extractLsb' 0 16).setWidth 32) := by
  have hmask : usedBits (commandWord 0x4 addr data) = commandWord 0xF 0 (BitVec.ofNat 32 (2 ^ 16 - 1)) :=
    (usedBits_commandWord 0x4 addr data).trans (by decide)
  rw [hmask, commandWord_and, field_and_zero, field_and_ones, setWidth_extract_low]

theorem and_usedBits_wr (addr : BitVec 4) (data : BitVec 32) :
    commandWord 0x1 addr data &&& usedBits (commandWord 0x1 addr data) = commandWord 0x1 addr data := by
  rw [usedBits_commandWord]
  exact BitVec.and_allOnes

theorem and_usedBits_rd (addr : BitVec 4) (data : BitVec 32) :
    commandWord 0x2 addr data &&& usedBits (commandWord 0x2 addr data) = commandWord 0x2 addr 0 := by
  have hmask : usedBits (commandWord 0x2 addr data) = commandWord 0xF 0xF 0 :=
    (usedBits_commandWord 0x2 addr data).trans (by decide)
  rw [hmask, commandWord_and, field_and_zero, field_and_ones, field_and_ones]

/-- The sixteen operation codes: six with a row each, two and eight with a shared one. -/
theorem op_cases (op : BitVec 4) :
    op = 0 ∨ op = 1 ∨ op = 2 ∨ op = 3 ∨ op = 4 ∨ op = 5 ∨
      (Instr.reserved67 op).wellFormed = true ∨ (Instr.reserved8F op).wellFormed = true := by
  revert op
  decide

/-- The reserved codes are none of the three whose operation uses a field beside `op`. -/
theorem reserved_op_ne {op : BitVec 4}
    (hop : (Instr.reserved67 op).wellFormed = true ∨ (Instr.reserved8F op).wellFormed = true) :
    op ≠ 1 ∧ op ≠ 2 ∧ op ≠ 4 := by
  revert hop op
  decide

theorem encode_decodeCommand_commandWord (op addr : BitVec 4) (data : BitVec 32) :
    (decodeCommand (commandWord op addr data)).wellFormed = true ∧
      encode (decodeCommand (commandWord op addr data)) =
        .command (commandWord op addr data &&& usedBits (commandWord op addr data)) := by
  obtain rfl | rfl | rfl | rfl | rfl | rfl | hop | hop := op_cases op
  · rw [decodeCommand_commandWord_nop, and_usedBits_of_opOnly (by decide)]
    exact ⟨rfl, rfl⟩
  · rw [decodeCommand_commandWord_wr, and_usedBits_wr]
    exact ⟨rfl, rfl⟩
  · rw [decodeCommand_commandWord_rd, and_usedBits_rd]
    exact ⟨rfl, rfl⟩
  · rw [decodeCommand_commandWord_tick, and_usedBits_of_opOnly (by decide)]
    exact ⟨rfl, rfl⟩
  · rw [decodeCommand_commandWord_decode, and_usedBits_decode]
    exact ⟨rfl, rfl⟩
  · rw [decodeCommand_commandWord_rst, and_usedBits_of_opOnly (by decide)]
    exact ⟨rfl, rfl⟩
  · rw [decodeCommand_commandWord_reserved67 hop, and_usedBits_of_opOnly (reserved_op_ne (.inl hop))]
    exact ⟨hop, rfl⟩
  · rw [decodeCommand_commandWord_reserved8F hop, and_usedBits_of_opOnly (reserved_op_ne (.inr hop))]
    exact ⟨hop, rfl⟩

theorem encode_decodeCommand (cw : CommandWord) :
    (decodeCommand cw).wellFormed = true ∧ encode (decodeCommand cw) = .command (cw &&& usedBits cw) := by
  have h := encode_decodeCommand_commandWord (opField cw) (addrField cw) (dataField cw)
  rwa [commandWord_fields] at h

/-! ## The ignored bits (30_encoding.md rule R46) -/

/-- The encoder's words show the used bits alone, and the decoder inverts it. -/
theorem decodeCommand_eq_of_usedBits {cw cw' : CommandWord} (h : cw &&& usedBits cw = cw' &&& usedBits cw') :
    decodeCommand cw = decodeCommand cw' := by
  obtain ⟨hwf, hencode⟩ := encode_decodeCommand cw
  obtain ⟨hwf', hencode'⟩ := encode_decodeCommand cw'
  have hsame : encode (decodeCommand cw) = encode (decodeCommand cw') := by rw [hencode, hencode', h]
  exact Except.ok.inj ((decode_encode hwf).symm.trans ((congrArg decode hsame).trans (decode_encode hwf')))

/-- Whether a chunk is presented is decided by the instruction alone. -/
theorem opField_eq_decode_iff_exists (cw : CommandWord) :
    opField cw = 0x4 ↔ ∃ len, decodeCommand cw = .decode len :=
  ⟨fun hop => ⟨_, (decodeCommand_eq_decode_iff cw).mpr hop⟩, fun ⟨len, hlen⟩ =>
    by_contra fun hop => decodeCommand_ne_decode hop len hlen⟩

theorem takeCommand_congr {cw cw' : CommandWord} (h : decodeCommand cw = decodeCommand cw') (chunk : List Byte)
    (rest : List HostMove) (s : State) : takeCommand cw chunk rest s = takeCommand cw' chunk rest s := by
  simp only [takeCommand_eq, opField_eq_decode_iff_exists, h]

/-! ## Bytes of a frame unit (30_encoding.md rules R53 to R56) -/

theorem decodeUnit_of_lt : ∀ {m : Mode} {bytes : List Byte}, bytes.length < unitSize m →
    decodeUnit m bytes = .error (.partialUnit m)
  | .oneLow, [], _ => rfl
  | .oneHigh, [], _ | .oneHigh, [_], _ => rfl
  | .twoLow, [], _ | .twoLow, [_], _ | .twoLow, [_, _], _ | .twoLow, [_, _, _], _ => rfl
  | .twoHigh, [], _ | .twoHigh, [_], _ => rfl
  | .oneLow, _ :: _, h | .oneHigh, _ :: _ :: _, h | .twoLow, _ :: _ :: _ :: _ :: _, h
  | .twoHigh, _ :: _ :: _, h => by
    simp only [unitSize, List.length_cons] at h
    omega

theorem decodeUnit_of_gt : ∀ {m : Mode} {bytes : List Byte}, unitSize m < bytes.length →
    decodeUnit m bytes = .error (.trailingBytes m)
  | .oneLow, _ :: _ :: _, _ => rfl
  | .oneHigh, _ :: _ :: _ :: _, _ => rfl
  | .twoLow, _ :: _ :: _ :: _ :: _ :: _, _ => rfl
  | .twoHigh, _ :: _ :: _ :: _, _ => rfl

/-! ## The statements -/

/-- Settles O1: one equation of the decoder for each row. -/
theorem decodeInvertsEncode : Obligations.DecodeInvertsEncode := by
  unfold Obligations.DecodeInvertsEncode
  exact fun i hi => decode_encode hi

/-- Settles O2: a command word is its three fields, and each operation code's mask acts field by field. -/
theorem encodeKeepsUsedBits : Obligations.EncodeKeepsUsedBits := by
  unfold Obligations.EncodeKeepsUsedBits
  exact encode_decodeCommand

/-- Settles O4: the two words decode to one instruction, which alone decides whether the chunk is presented. -/
theorem ignoredFieldsChangeNothing : Obligations.IgnoredFieldsChangeNothing := by
  unfold Obligations.IgnoredFieldsChangeNothing
  intro s cw cw' chunk rest h
  have hinstr := decodeCommand_eq_of_usedBits h
  rw [step_command rfl, step_command rfl, hinstr]
  exact congrArg (exec (decodeCommand cw')) (takeCommand_congr hinstr chunk rest _)

/-- Settles O5: the decoder evaluated on eight closed words. -/
theorem writtenOutWordsDecode : Obligations.WrittenOutWordsDecode := by
  unfold Obligations.WrittenOutWordsDecode
  decide

/-- Settles O6: the bytes are those that the encoder writes. -/
theorem frameUnitBytesDecode : Obligations.FrameUnitBytesDecode := by
  unfold Obligations.FrameUnitBytesDecode
  exact fun b t c a d v m => ⟨rfl, decode_encode (i := .unit1H v m) rfl, rfl, decode_encode (i := .unit2H v m) rfl⟩

/-- Settles O7: the decoder by the number of bytes. -/
theorem partialUnitsRejected : Obligations.PartialUnitsRejected := by
  unfold Obligations.PartialUnitsRejected
  intro m bytes
  rw [unitBytes_eq_unitSize]
  refine ⟨decodeUnit_of_lt, decodeUnit_of_gt, fun h => ?_⟩
  obtain ⟨u, hu, _⟩ := decodeUnit_of_length h
  exact ⟨u, hu⟩

end Sys2Proof.Machine
end

section
/-!
SUPPORT. One step (00_scope.md rule R12): every way a command word can end, said once, and a step from a dutiful host
always answered; then the statements about steps and the invariants, each read off the ends.
-/

namespace Sys2Proof.Machine

open Sys2Proof.Claims

/-! ## Every way a command can end -/

/-- The next states of a command: `CommandEnd s i t` when `i`, run with the buffer of a DECODE presented and everything
else as in `s`, can end in `t`. -/
inductive CommandEnd (s : State) : Instr → State → Prop
  /-- A DECODE that delivers MalformedFrame (42_decode.md rule R87). -/
  | rejected (len : BitVec 16) (cause : BitVec 32) :
    CommandEnd s (.decode len) (afterDecode { s with mfcnt := counted s.mfcnt } [reply 2 cause])
  /-- A DECODE that delivers its records and OK (42_decode.md rule R82). -/
  | decoded (len : BitVec 16) (recs : List Record) :
    CommandEnd s (.decode len) (afterDecode s (outputsOf recs ++ [reply 0 (BitVec.ofNat 32 recs.length)]))
  /-- An answer that changes no register, with another code than MalformedFrame's. -/
  | answered {i : Instr} {c : Code} {data : BitVec 32} (hdecode : ∀ len, i ≠ .decode len) (hrst : i ≠ .rst)
    (hcode : c ≠ .malformedFrame) : CommandEnd s i (respond c data s)
  /-- A WR that writes configuration registers (40_register_ops.md rule R66). -/
  | written {addr : BitVec 4} {data : BitVec 32} (hlock : s.lock = false) (mode : Mode) (strict : Bool) (token : Byte)
    (rate : BitVec 32) : CommandEnd s (.wr addr data)
      (respond .ok 0 { s with mode := mode, strict := strict, token := token, rate := rate })
  /-- RST (40_register_ops.md rule R68). -/
  | reset : CommandEnd s .rst (respond .ok 0 (resetRegisters s))

theorem exec_wr_end (addr : BitVec 4) (data : BitVec 32) (s : State) :
    ∃ t, exec (.wr addr data) s = .next t ∧ CommandEnd s (.wr addr data) t := by
  obtain hreserved | hreadOnly | hconfig : 5 ≤ addr.toNat ∨ (addr = 3 ∨ addr = 4) ∨ addr.toNat < 3 := by bv_omega
  · exact ⟨_, exec_wr_of_reserved hreserved data s, .answered (c := .illegalCommand) nofun nofun nofun⟩
  · exact ⟨_, exec_wr_of_readOnly hreadOnly data s, .answered (c := .illegalCommand) nofun nofun nofun⟩
  · cases hlock : s.lock with
    | true => exact ⟨_, exec_wr_of_locked hconfig hlock data, .answered (c := .configLocked) nofun nofun nofun⟩
    | false =>
      obtain rfl | rfl | rfl := addr_eq_of_lt_three hconfig
      · exact ⟨_, exec_wr_cfg_of_unlocked hlock data, .written hlock _ _ _ _⟩
      · exact ⟨_, exec_wr_token_of_unlocked hlock data, .written hlock _ _ _ _⟩
      · exact ⟨_, exec_wr_rate_of_unlocked hlock data, .written hlock _ _ _ _⟩

theorem exec_rd_end (addr : BitVec 4) (s : State) :
    ∃ t, exec (.rd addr) s = .next t ∧ CommandEnd s (.rd addr) t := by
  cases hreg : regOfNumber addr with
  | none =>
    exact ⟨_, exec_rd_of_reserved ((regOfNumber_eq_none_iff addr).mp hreg) s,
      .answered (c := .illegalCommand) nofun nofun nofun⟩
  | some r => exact ⟨_, exec_rd_of_regOfNumber hreg s, .answered nofun nofun nofun⟩

theorem exec_tick_end (s : State) : ∃ t, exec .tick s = .next t ∧ CommandEnd s .tick t := by
  obtain ⟨_, herr⟩ | ⟨_, _, _, hok⟩ := execTick_cases s
  · exact ⟨_, herr, .answered (c := .configurationRangeError) nofun nofun nofun⟩
  · exact ⟨_, hok, .answered nofun nofun nofun⟩

/-- A command other than DECODE always answers. -/
theorem exec_end_of_ne_decode {i : Instr} (hdecode : ∀ len, i ≠ .decode len) (hunit : ∀ u : FrameUnit, i ≠ u.toInstr)
    (s : State) : ∃ t, exec i s = .next t ∧ CommandEnd s i t := by
  cases i with
  | nop => exact ⟨_, exec_nop s, .answered (c := .ok) nofun nofun nofun⟩
  | wr addr data => exact exec_wr_end addr data s
  | rd addr => exact exec_rd_end addr s
  | tick => exact exec_tick_end s
  | decode len => exact absurd rfl (hdecode len)
  | rst => exact ⟨_, exec_rst s, .reset⟩
  | reserved67 op => exact ⟨_, exec_reserved67 op s, .answered (c := .illegalCommand) nofun nofun nofun⟩
  | reserved8F op => exact ⟨_, exec_reserved8F op s, .answered (c := .illegalCommand) nofun nofun nofun⟩
  | unit1L v => exact absurd rfl (hunit (.byte1L v))
  | unit1H v m => exact absurd rfl (hunit (.word1H v m))
  | unit2L t c a b => exact absurd rfl (hunit (.quad2L t c a b))
  | unit2H v m => exact absurd rfl (hunit (.word2H v m))

/-- A DECODE has the ends of the state without its chunk: the buffer is gone at the end. -/
theorem execDecode_end {len : BitVec 16} {s t : State} {cb : Memory}
    (h : execDecode len { s with cb := cb } = .next t) : CommandEnd s (.decode len) t := by
  obtain ⟨cause, rfl⟩ | ⟨recs, rfl⟩ := execDecode_eq_afterDecode h
  · exact .rejected len cause
  · exact .decoded len recs

theorem exec_end {i : Instr} {s t : State} (hunit : ∀ u : FrameUnit, i ≠ u.toInstr) (h : exec i s = .next t) :
    CommandEnd s i t := by
  by_cases hdecode : ∃ len, i = .decode len
  · obtain ⟨len, rfl⟩ := hdecode
    exact execDecode_end h
  · obtain ⟨t', ht', hend⟩ := exec_end_of_ne_decode (not_exists.mp hdecode) hunit s
    cases ht'.symm.trans h
    exact hend

theorem step_command_of_op_ne_decode {s : State} {cw : CommandWord} {chunk : List Byte} {rest : List HostMove}
    (hpending : s.pending = .command cw chunk :: rest) (hop : opField cw ≠ 0x4) :
    step s = exec (decodeCommand cw) { s with pending := rest } := by
  rw [step_command hpending, takeCommand_eq, if_neg hop]

theorem step_command_of_op_decode {s : State} {cw : CommandWord} {chunk : List Byte} {rest : List HostMove}
    (hpending : s.pending = .command cw chunk :: rest) (hop : opField cw = 0x4) :
    step s = exec (.decode (lenField cw)) { s with pending := rest, cb := Memory.ofBytes chunk } := by
  rw [step_command hpending, takeCommand_eq, if_pos hop, (decodeCommand_eq_decode_iff cw).mpr hop]

/-- Everything a step that takes a command word can do. -/
theorem step_command_end {s t : State} {cw : CommandWord} {chunk : List Byte} {rest : List HostMove}
    (hpending : s.pending = .command cw chunk :: rest) (h : step s = .next t) :
    CommandEnd { s with pending := rest } (decodeCommand cw) t := by
  by_cases hop : opField cw = 0x4
  · rw [step_command_of_op_decode hpending hop] at h
    rw [(decodeCommand_eq_decode_iff cw).mpr hop]
    exact execDecode_end h
  · rw [step_command_of_op_ne_decode hpending hop] at h
    exact exec_end (decodeCommand_ne_toInstr cw) h

/-- The statements' reading of the `op` field, by the instruction. -/
theorem op_eq_decode_iff (cw : CommandWord) : cw.extractLsb' 36 4 = 4 ↔ ∃ len, decodeCommand cw = .decode len :=
  opField_eq_decode_iff_exists cw

theorem op_eq_rst_iff (cw : CommandWord) : cw.extractLsb' 36 4 = 5 ↔ decodeCommand cw = .rst := by
  change opField cw = 5 ↔ _
  unfold decodeCommand
  split <;> simp only [reduceCtorEq, iff_true, iff_false] <;> bv_omega

/-- No command touches the host's moves that are still to come. -/
theorem CommandEnd.pending_eq {s t : State} {i : Instr} (h : CommandEnd s i t) : t.pending = s.pending := by
  cases h with
  | rejected | decoded | answered | written | reset => rfl

/-- A command leaves the buffer as it was, or empty at the end of a DECODE. -/
theorem CommandEnd.cb_eq {s t : State} {i : Instr} (h : CommandEnd s i t) :
    t.cb = s.cb ∨ t.cb = [] ∧ ∃ len, i = .decode len := by
  cases h with
  | rejected len | decoded len => exact .inr ⟨rfl, len, rfl⟩
  | answered | written | reset => exact .inl rfl

/-- The same for every instruction: a unit row does not reach the buffer either. -/
theorem exec_cb_eq {i : Instr} {s t : State} (h : exec i s = .next t) :
    t.cb = s.cb ∨ t.cb = [] ∧ ∃ len, i = .decode len := by
  by_cases hunit : ∃ u : FrameUnit, i = u.toInstr
  · obtain ⟨u, rfl⟩ := hunit
    rw [exec_toInstr, runUnit_eq] at h
    cases h
    exact .inl rfl
  · exact (exec_end (not_exists.mp hunit) h).cb_eq

theorem exec_keeps_wf {i : Instr} {s t : State} (hwf : s.cb.wf = true) (h : exec i s = .next t) :
    t.cb.wf = true := by
  obtain hcb | ⟨hcb, _⟩ := exec_cb_eq h
  · rw [hcb, hwf]
  · rw [hcb, Memory.empty_wf]

/-! ## A host that keeps its duties (70_reset_and_hazards.md rule R119) -/

/-- The hand-over duty of one command is enough for its step to answer. -/
theorem step_command_answers {s : State} {cw : CommandWord} {chunk : List Byte} {rest : List HostMove}
    (hpending : s.pending = .command cw chunk :: rest)
    (hduty : opField cw = 0x4 → chunk.length = (lenField cw).toNat) : ∃ t, step s = .next t := by
  by_cases hop : opField cw = 0x4
  · obtain ⟨outs, count, _, hanswer⟩ := exec_decode_answer s (hduty hop)
    exact ⟨_, (step_command_of_op_decode hpending hop).trans (hanswer _ rfl rfl rfl rfl)⟩
  · obtain ⟨t, ht, _⟩ := exec_end_of_ne_decode (decodeCommand_ne_decode hop) (decodeCommand_ne_toInstr cw)
      { s with pending := rest }
    exact ⟨t, (step_command_of_op_ne_decode hpending hop).trans ht⟩

theorem dutiful_of_pending {s : State} {moves : List HostMove} (h : s.pending = moves) :
    s.dutiful = moves.all HostMove.dutiful := by
  rw [State.dutiful, h]

theorem dutiful_command_iff (cw : CommandWord) (chunk : List Byte) :
    (HostMove.command cw chunk).dutiful = true ↔ (opField cw = 0x4 → chunk.length = (lenField cw).toNat) :=
  decide_eq_true_iff

/-! ## Between operations (00_scope.md rule R12) -/

theorem afterDecode_quiet (s : State) (outs : List Output) : (afterDecode s outs).quiet = true := rfl

/-- Taking a move off the port and writing registers do not start a DECODE. -/
theorem CommandEnd.quiet {s t : State} {i : Instr} (h : CommandEnd s i t) (hquiet : s.quiet = true) :
    t.quiet = true := by
  cases h with
  | rejected | decoded => exact afterDecode_quiet _ _
  | answered | written | reset => exact hquiet

/-! ## The response to a command (30_encoding.md rule R50) -/

theorem codeNumber_le_four (c : Code) : (codeNumber c).toNat ≤ 4 := by cases c <;> decide

@[simp] theorem codeNumber_eq_two_iff (c : Code) : codeNumber c = 2#8 ↔ c = .malformedFrame :=
  ⟨codeNumber_injective (d := .malformedFrame), fun h => h ▸ rfl⟩

/-- Records come from a DECODE alone, and then OK with their number. -/
theorem CommandEnd.delivered {s t : State} {i : Instr} (h : CommandEnd s i t) :
    ∃ (recs : List SampleWord) (c : Code) (data : BitVec 32),
      t.delivered = s.delivered ++ recs.map Output.sample ++ [.response (rw (codeNumber c) data)] ∧
      (recs ≠ [] → (∃ len, i = .decode len) ∧ c = .ok ∧ data = BitVec.ofNat 32 recs.length) := by
  have hnone (c : Code) (data : BitVec 32) : s.delivered ++ [reply (codeNumber c) data] =
      s.delivered ++ ([] : List SampleWord).map Output.sample ++ [.response (rw (codeNumber c) data)] := by
    rw [List.map_nil, List.append_nil, reply]
  cases h with
  | rejected len cause => exact ⟨[], .malformedFrame, cause, hnone .malformedFrame cause, absurd rfl⟩
  | decoded len recs =>
    refine ⟨recs.map recordWord, .ok, BitVec.ofNat 32 recs.length, ?_, fun _ => ⟨⟨len, rfl⟩, rfl, ?_⟩⟩
    · rw [List.map_map, List.append_assoc]
      rfl
    · rw [List.length_map]
  | @answered _ c data => exact ⟨[], c, data, hnone c data, absurd rfl⟩
  | written | reset => exact ⟨[], .ok, 0, hnone .ok 0, absurd rfl⟩

/-! ## The statements -/

/-- Settles O47: by the move taken; the moves that remain are among those that were dutiful. -/
theorem dutifulHostAlwaysAnswered : Obligations.DutifulHostAlwaysAnswered := by
  unfold Obligations.DutifulHostAlwaysAnswered
  intro s hduty
  cases hpending : s.pending with
  | nil => exact ⟨s, by rw [step, hpending], hduty⟩
  | cons move rest =>
    rw [dutiful_of_pending hpending, List.all_cons, Bool.and_eq_true] at hduty
    obtain ⟨hmove, hrest⟩ := hduty
    cases move with
    | reset => exact ⟨_, step_reset hpending, hrest⟩
    | command cw chunk =>
      obtain ⟨t, ht⟩ := step_command_answers hpending ((dutiful_command_iff cw chunk).mp hmove)
      exact ⟨t, ht, (dutiful_of_pending (step_command_end hpending ht).pending_eq).trans hrest⟩

/-- Settles O50: of the ends of a command only a WR with LOCK 0 and RST write the configuration. -/
theorem lockedConfigurationImmutable : Obligations.LockedConfigurationImmutable := by
  unfold Obligations.LockedConfigurationImmutable
  intro s t hlocked h
  obtain ⟨_, rfl⟩ | ⟨rest, hpending, _⟩ | ⟨cw, chunk, rest, hpending, _⟩ := step_cases h
  · exact .inl ⟨rfl, rfl, rfl, rfl, hlocked⟩
  · exact .inr (.inl ⟨rest, hpending⟩)
  · have hend := step_command_end hpending h
    generalize hi : decodeCommand cw = i at hend
    cases hend with
    | rejected | decoded => exact .inl ⟨rfl, rfl, rfl, rfl, rfl⟩
    | answered => exact .inl ⟨rfl, rfl, rfl, rfl, hlocked⟩
    | written hlock => exact nomatch hlocked.symm.trans hlock
    | reset => exact .inr (.inr ⟨cw, chunk, rest, hpending, (op_eq_rst_iff cw).mpr hi⟩)

/-- Settles O53: every DECODE closes the chunk it opened, and no other move opens one. -/
theorem nothingSurvivesAnOperation : Obligations.NothingSurvivesAnOperation := by
  unfold Obligations.NothingSurvivesAnOperation
  intro s t hquiet h
  obtain ⟨_, rfl⟩ | ⟨rest, _, rfl⟩ | ⟨cw, chunk, rest, hpending, _⟩ := step_cases h
  · exact hquiet
  · exact hquiet
  · exact (step_command_end hpending h).quiet hquiet

/-- Settles O46: the words each end delivers. -/
theorem everyCommandOneResponse : Obligations.EveryCommandOneResponse := by
  unfold Obligations.EveryCommandOneResponse
  intro s t cw chunk rest hpending h
  have hend := step_command_end hpending h
  obtain ⟨recs, c, data, hdelivered, hrecs⟩ := hend.delivered
  refine ⟨recs, rw (codeNumber c) data, hdelivered, hend.pending_eq, ?_, fun hne => ?_⟩
  · rw [rw_code]
    exact codeNumber_le_four c
  · obtain ⟨hdecode, rfl, rfl⟩ := hrecs hne
    exact ⟨(op_eq_decode_iff cw).mpr hdecode, rfl⟩

/-- Settles O51: LOCK at each end of a command. -/
theorem lockSetExactlyByDecode : Obligations.LockSetExactlyByDecode := by
  unfold Obligations.LockSetExactlyByDecode
  intro s t h
  refine ⟨fun hpending => ?wait, fun rest hpending => ?reset, fun cw chunk rest hpending => ?command⟩
  case wait =>
    rw [step, hpending] at h
    cases h
    rfl
  case reset =>
    cases (step_reset hpending).symm.trans h
    rfl
  case command =>
    have hend := step_command_end hpending h
    simp only [op_eq_decode_iff, op_eq_rst_iff]
    generalize decodeCommand cw = i at hend
    cases hend with
    | rejected | decoded => simp [afterDecode]
    | answered hdecode hrst => simp [hdecode, hrst]
    | written | reset => simp

/-- Settles O52: MFCNT at each end of a command, and the code that the end delivers. -/
theorem mfcntCountsMalformedFrames : Obligations.MfcntCountsMalformedFrames := by
  unfold Obligations.MfcntCountsMalformedFrames
  intro s t h
  refine ⟨fun hpending => ?wait, fun rest hpending => ?reset,
    fun cw chunk rest outs w hpending hdelivered => ?command⟩
  case wait =>
    rw [step, hpending] at h
    cases h
    rfl
  case reset =>
    cases (step_reset hpending).symm.trans h
    rfl
  case command =>
    have hend := step_command_end hpending h
    simp only [op_eq_rst_iff]
    generalize decodeCommand cw = i at hend
    cases hend with
    | rejected len cause =>
      obtain ⟨_, rfl⟩ := delivered_last_inj (outs' := []) hdelivered
      simp [afterDecode, rw_code]
    | decoded len recs =>
      obtain ⟨_, rfl⟩ := delivered_last_inj hdelivered
      simp [afterDecode, rw_code]
    | answered _ hrst hcode =>
      obtain ⟨_, rfl⟩ := delivered_last_inj (outs' := []) hdelivered
      simp [rw_code, hrst, hcode]
    | written =>
      obtain ⟨_, rfl⟩ := delivered_last_inj (outs' := []) hdelivered
      simp [rw_code]
    | reset => simp

/-- Settles O55: an instruction leaves the buffer as presented, or empty. -/
theorem chunkBufferStaysCanonical : Obligations.ChunkBufferStaysCanonical := by
  unfold Obligations.ChunkBufferStaysCanonical
  refine fun s t hwf => ⟨fun h => ?_, fun i h => exec_keeps_wf hwf h⟩
  obtain ⟨_, rfl⟩ | ⟨rest, _, rfl⟩ | ⟨cw, chunk, rest, _, hexec⟩ := step_cases h
  · exact hwf
  · exact hwf
  · exact exec_keeps_wf (presentChunk_wf (opField cw) chunk (withPending rest s) hwf) hexec

/-- Settles O57: the buffer itself is unchanged. -/
theorem onlyDecodeTouchesTheBuffer : Obligations.OnlyDecodeTouchesTheBuffer := by
  unfold Obligations.OnlyDecodeTouchesTheBuffer
  intro i s t hdecode h a
  obtain hcb | ⟨_, len, hlen⟩ := exec_cb_eq h
  · rw [hcb]
  · exact absurd hlen (hdecode len)

/-- Settles O9: it is the step's equation for a command word. -/
theorem stepRunsTheDecodedCommand : Obligations.StepRunsTheDecodedCommand := by
  unfold Obligations.StepRunsTheDecodedCommand
  exact fun s cw chunk rest hpending => step_command hpending

/-- Settles O12: it is the step's equation for an empty port. -/
theorem stepWaitsForACommand : Obligations.StepWaitsForACommand := by
  unfold Obligations.StepWaitsForACommand
  intro s hpending
  rw [step, hpending]

/-- Settles O48: no move is pending at reset. -/
theorem resetIsDutiful : Obligations.ResetIsDutiful := by
  unfold Obligations.ResetIsDutiful
  exact dutiful_of_pending rfl

/-- Settles O54: the reset state's fields are those of a block between two operations. -/
theorem resetIsQuiet : Obligations.ResetIsQuiet := by
  unfold Obligations.ResetIsQuiet
  decide

/-- Settles O56: the buffer at reset is empty. -/
theorem resetChunkBufferCanonical : Obligations.ResetChunkBufferCanonical := by
  unfold Obligations.ResetChunkBufferCanonical
  exact Memory.empty_wf

end Sys2Proof.Machine
end

section
/-!
SUPPORT. The numbers of TICK (41_tick.md): the rounded count is within half a tick, which decides it up to a tie; the
divisors that tie; then the six statements.
-/

namespace Sys2Proof.Machine

open Sys2Proof.Claims

/-! ## The rounded count is within half a tick (41_tick.md rules R74 and R79) -/

/-- Twice the count times the divisor is off twice the ticks of a second by the divisor at most. -/
theorem roundNearest_bounds (tieUp : Nat → Bool) {n : Nat} (hn : 0 < n) :
    2 * (roundNearest tieUp n * n) ≤ 80000000 + n ∧ 80000000 ≤ 2 * (roundNearest tieUp n * n) + n := by
  have hdiv : n * (40000000 / n) + 40000000 % n = 40000000 := Nat.div_add_mod 40000000 n
  have hmod : 40000000 % n < n := Nat.mod_lt _ hn
  rw [Nat.mul_comm (roundNearest tieUp n)]
  obtain ⟨hrem, hcount⟩ | ⟨hrem, hcount⟩ | ⟨hrem, hcount⟩ := roundNearest_cases tieUp n
  · rw [hcount]
    omega
  · rw [hcount, Nat.mul_add]
    omega
  · rw [hcount, Nat.mul_add]
    split <;> omega

/-- A count strictly nearest is the rounded one. -/
theorem roundNearest_eq_of_lt (tieUp : Nat → Bool) {n ticks : Nat} (hn : 0 < n)
    (hlow : (2 * ticks - 1) * n < 80000000) (hhigh : 80000000 < (2 * ticks + 1) * n) :
    roundNearest tieUp n = ticks := by
  obtain ⟨hle, hge⟩ := roundNearest_bounds tieUp hn
  have hupper : 2 * roundNearest tieUp n < 2 * ticks + 2 :=
    Nat.lt_of_mul_lt_mul_right (a := n) (by linarith)
  have hlower : 2 * ticks - 1 < 2 * roundNearest tieUp n + 1 :=
    Nat.lt_of_mul_lt_mul_right (a := n) (by linarith)
  omega

/-- A larger divisor has no larger count, for any TIE_UP. -/
theorem roundNearest_antitone (tieUp : Nat → Bool) {n m : Nat} (hn : 0 < n) (hnm : n ≤ m) :
    roundNearest tieUp m ≤ roundNearest tieUp n := by
  obtain rfl | hlt := Nat.eq_or_lt_of_le hnm
  · exact Nat.le_refl _
  · by_contra hgt
    obtain ⟨_, hge⟩ := roundNearest_bounds tieUp hn
    obtain ⟨hle, _⟩ := roundNearest_bounds tieUp (Nat.lt_trans hn hlt)
    have hstep : (roundNearest tieUp n + 1) * m ≤ roundNearest tieUp m * m :=
      Nat.mul_le_mul_right m (by omega)
    have hless : (2 * roundNearest tieUp n + 1) * n < (2 * roundNearest tieUp n + 1) * m :=
      Nat.mul_lt_mul_of_pos_left hlt (by omega)
    linarith

/-! ## Ties (41_tick.md rule R75) -/

/-- Off the ties TIE_UP is not asked. -/
theorem roundNearest_congr_of_not_tie {n : Nat} (h : 2 * (40000000 % n) ≠ n) (f g : Nat → Bool) :
    roundNearest f n = roundNearest g n := by
  obtain hdown | hup | ⟨hrem, _⟩ := roundNearest_cases f n
  · exact eq_roundNearest_of_cases (.inl hdown)
  · exact eq_roundNearest_of_cases (.inr (.inl hup))
  · exact absurd hrem h

theorem roundNearest_of_tie {n : Nat} (h : 2 * (40000000 % n) = n) (f : Nat → Bool) :
    roundNearest f n = 40000000 / n + if f n then 1 else 0 :=
  (eq_roundNearest_of_cases (.inr (.inr ⟨h, rfl⟩))).symm

/-- At a tie 80 000 000 is an odd multiple of the divisor. Its odd divisors are the powers of 5 up to the seventh, as
80 000 000 is `2 ^ 10 * 5 ^ 7`. -/
theorem mem_tieTable_of_tie {n : Nat} (h : 2 * (40000000 % n) = n) : n ∈ tieTable := by
  have hdiv : n * (40000000 / n) + 40000000 % n = 40000000 := Nat.div_add_mod 40000000 n
  have hodd : (2 * (40000000 / n) + 1) * n = 2 ^ 10 * 5 ^ 7 := by
    rw [Nat.add_mul, Nat.mul_assoc, Nat.mul_comm (40000000 / n)]
    omega
  have hcoprime : Nat.Coprime (2 * (40000000 / n) + 1) (2 ^ 10) :=
    Nat.Coprime.pow_right 10 (Nat.coprime_two_right.mpr ⟨_, rfl⟩)
  obtain ⟨k, hk, hpow⟩ := (Nat.dvd_prime_pow Nat.prime_five).mp
    (hcoprime.dvd_of_dvd_mul_left (Dvd.intro n hodd))
  rw [hpow] at hodd
  simp only [tieTable, List.mem_cons, List.not_mem_nil, or_false]
  interval_cases k <;> omega

theorem tie_of_mem_tieTable {n : Nat} (h : n ∈ tieTable) : 2 * (40000000 % n) = n := by
  revert n
  decide

/-- No tie is a multiple of 3, which every divisor of mode 2H is. -/
theorem three_mul_not_mem_tieTable (rate : Nat) : rate * 3 ∉ tieTable := by
  simp only [tieTable, List.mem_cons, List.not_mem_nil, or_false]
  omega

/-! ## TICK's answer by the rounded count (41_tick.md rules R69, R71 and R78) -/

/-- The register pair put together again is the count. -/
theorem tickPair_append {ticks : Nat} (h : ticks ≤ 65535) :
    (0 : BitVec 16) ++ (BitVec.ofNat 16 ticks).extractLsb' 8 8 ++ (BitVec.ofNat 16 ticks).extractLsb' 0 8 =
      BitVec.ofNat 32 ticks := by
  have hpair : (BitVec.ofNat 16 ticks).extractLsb' 8 8 ++ (BitVec.ofNat 16 ticks).extractLsb' 0 8 =
      BitVec.ofNat 16 ticks := append_extract_extract (n := 8) (m := 8) _
  rw [BitVec.append_assoc, hpair]
  exact (BitVec.setWidth_eq_append (by decide)).symm.trans (by bv_omega)

theorem tickN_pos_iff (s : State) : 0 < tickN s ↔ s.rate ≠ 0 := by
  have hmult : 0 < multiplier s.mode := by cases s.mode <;> decide
  rw [tickN, Nat.mul_pos_iff_of_pos_right hmult]
  bv_omega

/-- OK with the count, or ConfigurationRangeError where the register pair cannot hold it. -/
theorem exec_tick_of_tickN_pos {s : State} (hn : 0 < tickN s) :
    exec .tick s = .next (also s [
      if 1 ≤ roundNearest Config.tieUp (tickN s) ∧ roundNearest Config.tieUp (tickN s) ≤ 65535 then
        reply 0 (BitVec.ofNat 32 (roundNearest Config.tieUp (tickN s)))
      else reply 1 0]) := by
  rw [exec_tick_of_rate_ne_zero ((tickN_pos_iff s).mp hn) rfl]
  by_cases hfits : 1 ≤ roundNearest Config.tieUp (tickN s) ∧ roundNearest Config.tieUp (tickN s) ≤ 65535
  · rw [if_pos hfits, if_neg (by omega), tickPair_append hfits.2]
  · rw [if_neg hfits, if_pos (by omega)]

theorem exec_tick_of_count {s : State} (hn : 0 < tickN s) {ticks : Nat}
    (hcount : roundNearest Config.tieUp (tickN s) = ticks) (hfits : 1 ≤ ticks ∧ ticks ≤ 65535) :
    exec .tick s = .next (also s [reply 0 (BitVec.ofNat 32 ticks)]) := by
  rw [exec_tick_of_tickN_pos hn, hcount, if_pos hfits]

theorem exec_tick_of_tickN_zero {s : State} (hn : tickN s = 0) : exec .tick s = .next (also s [reply 1 0]) :=
  exec_tick_of_rate_zero (by_contra fun hrate => Nat.ne_of_gt ((tickN_pos_iff s).mpr hrate) hn)

/-! ## The divisors that have a count (41_tick.md rule R77) -/

theorem count_le_of_le {tieUp : Nat → Bool} {n : Nat} (hn : 611 ≤ n) : roundNearest tieUp n ≤ 65466 := by
  obtain ⟨hle, _⟩ := roundNearest_bounds tieUp (n := 611) (by decide)
  have hmono := roundNearest_antitone tieUp (by decide) hn
  omega

theorem count_gt_of_lt {tieUp : Nat → Bool} {n : Nat} (hn : 0 < n) (hsmall : n < 611) :
    65535 < roundNearest tieUp n := by
  obtain ⟨_, hge⟩ := roundNearest_bounds tieUp (n := 610) (by decide)
  have hmono := roundNearest_antitone tieUp hn (Nat.le_of_lt_succ hsmall)
  omega

theorem count_pos_of_lt {tieUp : Nat → Bool} {n : Nat} (hn : 0 < n) (hlarge : n < 80000000) :
    1 ≤ roundNearest tieUp n := by
  obtain ⟨_, hge⟩ := roundNearest_bounds tieUp (n := 79999999) (by decide)
  have hmono := roundNearest_antitone tieUp hn (Nat.le_of_lt_succ hlarge)
  omega

theorem count_eq_zero_of_gt {tieUp : Nat → Bool} {n : Nat} (hn : 80000000 < n) : roundNearest tieUp n = 0 := by
  obtain ⟨hle, _⟩ := roundNearest_bounds tieUp (n := 80000001) (by decide)
  have hmono := roundNearest_antitone tieUp (n := 80000001) (by decide) hn
  omega

theorem count_of_80000000 (tieUp : Nat → Bool) :
    roundNearest tieUp 80000000 = if tieUp 80000000 then 1 else 0 :=
  (roundNearest_of_tie (by decide) tieUp).trans (Nat.zero_add _)

/-- The count fits the register pair exactly for the divisors of the spec's inference. -/
theorem count_fits_iff (tieUp : Nat → Bool) {n : Nat} (hn : 0 < n) :
    1 ≤ roundNearest tieUp n ∧ roundNearest tieUp n ≤ 65535 ↔
      611 ≤ n ∧ n ≤ 79999999 ∨ n = 80000000 ∧ tieUp 80000000 = true := by
  obtain hsmall | hmiddle | rfl | hlarge : n < 611 ∨ (611 ≤ n ∧ n ≤ 79999999) ∨ n = 80000000 ∨ 80000000 < n := by
    omega
  · have := count_gt_of_lt (tieUp := tieUp) hn hsmall
    omega
  · have := count_le_of_le (tieUp := tieUp) hmiddle.1
    have := count_pos_of_lt (tieUp := tieUp) hn (Nat.lt_succ_of_le hmiddle.2)
    omega
  · rw [count_of_80000000]
    cases tieUp 80000000 <;> decide
  · have := count_eq_zero_of_gt (tieUp := tieUp) hlarge
    omega

/-! ## Reading a response -/

theorem reply_inj {code code' : BitVec 8} {data data' : BitVec 32} (h : reply code data = reply code' data') :
    code = code' ∧ data = data' := by
  have hw : rw code data = rw code' data' := Output.response.inj h
  have hdata := congrArg (BitVec.extractLsb' 0 32) hw
  exact ⟨(rw_code code data).symm.trans ((congrArg (BitVec.extractLsb' 32 8) hw).trans (rw_code code' data')),
    (extract_append_low code data).symm.trans (hdata.trans (extract_append_low code' data'))⟩

/-- When TICK answers OK its data is the rounded count. -/
theorem tick_ok_data {s t : State} {d : BitVec 32} (h : exec .tick s = .next t)
    (hdelivered : t.delivered = s.delivered ++ [reply 0 d]) :
    0 < tickN s ∧ d.toNat = roundNearest Config.tieUp (tickN s) := by
  have hanswer {o : Output} (ho : exec .tick s = .next (also s [o])) : o = reply 0 d := by
    cases ho.symm.trans h
    exact List.singleton_inj.mp (List.append_cancel_left hdelivered)
  obtain hzero | hpos := Nat.eq_zero_or_pos (tickN s)
  · obtain ⟨hcode, _⟩ := reply_inj (hanswer (exec_tick_of_tickN_zero hzero))
    exact absurd hcode (by decide)
  · have hreply := hanswer (exec_tick_of_tickN_pos hpos)
    refine ⟨hpos, ?_⟩
    split at hreply
    case isTrue hfits =>
      obtain ⟨_, rfl⟩ := reply_inj hreply
      rw [BitVec.toNat_ofNat, Nat.mod_eq_of_lt (by omega)]
    case isFalse =>
      obtain ⟨hcode, _⟩ := reply_inj hreply
      exact absurd hcode (by decide)

/-! ## The statements -/

/-- Settles O22: the nearest count is the rounded one, and it fits the register pair. -/
theorem tickReturnsTheNearestCount : Obligations.TickReturnsTheNearestCount := by
  unfold Obligations.TickReturnsTheNearestCount
  exact fun s ticks hn hmin hmax hlow hhigh =>
    exec_tick_of_count hn (roundNearest_eq_of_lt Config.tieUp hn hlow hhigh) ⟨hmin, hmax⟩

/-- Settles O23: by whether the count fits the register pair; one that fits is at most the count at 611. -/
theorem tickSucceedsExactlyInRange : Obligations.TickSucceedsExactlyInRange := by
  unfold Obligations.TickSucceedsExactlyInRange
  intro s
  obtain hzero | hpos := Nat.eq_zero_or_pos (tickN s)
  · rw [if_neg (by omega)]
    exact exec_tick_of_tickN_zero hzero
  · have hfits := count_fits_iff Config.tieUp hpos
    split
    case isTrue hrange =>
      exact ⟨_, (hfits.mpr hrange).1, count_le_of_le (by omega), exec_tick_of_count hpos rfl (hfits.mpr hrange)⟩
    case isFalse hrange =>
      rw [exec_tick_of_tickN_pos hpos, if_neg (mt hfits.mp hrange)]

/-- Settles O24: the data is the rounded count, which is within half a tick. -/
theorem tickErrorAtMostHalfATick : Obligations.TickErrorAtMostHalfATick := by
  unfold Obligations.TickErrorAtMostHalfATick
  intro s t d h hdelivered
  obtain ⟨hpos, hd⟩ := tick_ok_data h hdelivered
  obtain ⟨hle, hge⟩ := roundNearest_bounds Config.tieUp hpos
  rw [hd]
  omega

/-- Settles O25: the table lists exactly the divisors at which the remainder is a half. -/
theorem tiesAreTheEightListed : Obligations.TiesAreTheEightListed := by
  unfold Obligations.TiesAreTheEightListed
  exact fun n _ => ⟨fun hout => roundNearest_congr_of_not_tie (mt mem_tieTable_of_tie hout),
    fun hin => roundNearest_of_tie (tie_of_mem_tieTable hin)⟩

/-- Settles O26: a multiple of 3 is no tie, so the rounding does not ask TIE_UP. -/
theorem twoHighNeverTies : Obligations.TwoHighNeverTies := by
  unfold Obligations.TwoHighNeverTies
  intro rate f g
  have hcount : roundNearest f (divisor rate .twoHigh) = roundNearest g (divisor rate .twoHigh) :=
    roundNearest_congr_of_not_tie (mt mem_tieTable_of_tie (three_mul_not_mem_tieTable rate.toNat)) f g
  simp only [tick, hcount]

/-- Settles O27: the half-tick bounds of two divisors leave no other order of their counts. -/
theorem tickCountNonIncreasing : Obligations.TickCountNonIncreasing := by
  unfold Obligations.TickCountNonIncreasing
  exact fun up n m hn hnm => roundNearest_antitone (fun _ => up) hn hnm

end Sys2Proof.Machine
end

section
/-!
SUPPORT. The decode loop (42_decode.md rules R84 and R89): a pass is the exec of the unit's row, the loop is its rows
run in order, and in 2L it depends on the sample bytes alone (20_memory.md rule R37); then the four statements.
-/

namespace Sys2Proof.Machine

open Sys2Proof.Claims

/-! ## Unit rows (42_decode.md rules R90 to R93) -/

/-- The state after a unit: its records appended, `pos` advanced by its size. -/
def afterUnit (u : UnitRead) (s : State) : State :=
  { s with
    out := s.out ++ unitRecords u s.pos
    pos := s.pos + BitVec.ofNat 17 (unitSize (unitMode u)) }

theorem exec_unit (u : FrameUnit) (s : State) : exec u.toInstr s = .next (afterUnit (readOf u) s) :=
  (exec_toInstr s u).trans (runUnit_eq s (readOf u))

/-- What bytes under a mode decode to is the row of a frame unit. -/
theorem exists_unit_of_decode {m : Mode} {bytes : List Byte} {i : Instr} (h : decode (.unit m bytes) = .ok i) :
    ∃ u, decodeUnit m bytes = .ok u ∧ u.toInstr = i := by
  rw [decode] at h
  cases hu : decodeUnit m bytes with
  | error reject =>
    rw [hu] at h
    cases h
  | ok u =>
    rw [hu] at h
    exact ⟨u, rfl, Except.ok.inj h⟩

theorem unitLoop_succ_eq {n : Nat} {s : State} {u : UnitRead} (hpos : s.pos.toNat ≠ s.len.toNat)
    (hu : fetchUnit s = some u) : unitLoop (n + 1) s = unitLoop n (afterUnit u s) :=
  unitLoop_succ hpos hu

/-- Clearing the low nibble of a word leaves its sample bits over zeros (30_encoding.md rule R57). -/
theorem word_masked (v : BitVec 12) (m : BitVec 4) : (v ++ m : BitVec 16) &&& 0xFFF0 = v ++ (0 : BitVec 4) :=
  calc (v ++ m : BitVec 16) &&& 0xFFF0
      = (v &&& BitVec.allOnes 12) ++ (m &&& 0) :=
        BitVec.and_append (x₁ := v) (x₂ := BitVec.allOnes 12) (y₁ := m) (y₂ := 0)
    _ = v ++ (0 : BitVec 4) := congrArg₂ (· ++ ·) BitVec.and_allOnes (field_and_zero m)

theorem valOfWord_wordOf (v : BitVec 12) (m : BitVec 4) : valOfWord (wordOf v m) = v ++ (0 : BitVec 4) :=
  word_masked v m

theorem mkOfWord_wordOf (v : BitVec 12) (m : BitVec 4) : mkOfWord (wordOf v m) = m := markerField_append v m

/-- The parity of a word's index is bit 1 of its offset. -/
theorem laneOfPos_eq_extract (pos : BitVec 17) : laneOfPos pos = pos.extractLsb' 1 1 := by
  apply BitVec.eq_of_toNat_eq
  simp [laneOfPos, Nat.shiftRight_eq_div_pow]

/-! ## The rows of a chunk (30_encoding.md rules R53 to R56) -/

theorem unitRows_nil (m : Mode) : unitRows m [] = [] := by cases m <;> rfl

/-- The first unit's row comes first, then the rows of the rest. -/
theorem unitRows_unit_append {m : Mode} {unit : List Byte} {u : FrameUnit} (hu : decodeUnit m unit = .ok u)
    (rest : List Byte) : unitRows m (unit ++ rest) = u.toInstr :: unitRows m rest := by
  unfold decodeUnit at hu
  split at hu <;> cases hu
  case h_1 v => simp only [List.singleton_append, unitRows, List.map_cons, FrameUnit.toInstr]
  case h_8 t c a b => simp only [List.cons_append, List.nil_append, unitRows, FrameUnit.toInstr]
  case h_4 lo hi | h_14 lo hi =>
    simp only [List.cons_append, List.nil_append, unitRows, chunkWords, List.map_cons, FrameUnit.toInstr]
    rfl

theorem toNat_pos_add_unitSize {s : State} (hfit : s.pos.toNat + unitSize s.mode ≤ s.len.toNat) :
    (s.pos + BitVec.ofNat 17 (unitSize s.mode)).toNat = s.pos.toNat + unitSize s.mode := by
  have := s.len.isLt
  rw [BitVec.toNat_add, BitVec.toNat_ofNat]
  omega

/-- From any unit boundary the loop is the rows of the bytes that are left, run in order. -/
theorem execAll_unitRows_eq_unitLoop {n : Nat} {s : State} {bytes : List Byte} (hcb : s.cb = Memory.ofBytes bytes)
    (hlen : bytes.length = s.len.toNat) (hfit : s.pos.toNat + n * unitSize s.mode = bytes.length) :
    execAll (unitRows s.mode (bytes.drop s.pos.toNat)) s = unitLoop n s := by
  induction n generalizing s with
  | zero => rw [List.drop_eq_nil_of_le (by omega), unitRows_nil, execAll, unitLoop]
  | succ n ih =>
    have hsize := unitSize_pos s.mode
    rw [Nat.succ_mul] at hfit
    obtain ⟨u, hu, hfetch, hmode⟩ := fetchUnit_ofBytes hcb (by omega)
    have hpos : (afterUnit (readOf u) s).pos.toNat = s.pos.toNat + unitSize s.mode := by
      rw [afterUnit, hmode, toNat_pos_add_unitSize (by omega)]
    have hrest : execAll (unitRows s.mode (bytes.drop (s.pos.toNat + unitSize s.mode))) (afterUnit (readOf u) s) =
        unitLoop n (afterUnit (readOf u) s) := by
      rw [← hpos]
      refine ih (s := afterUnit (readOf u) s) hcb hlen ?_
      change _ + n * unitSize s.mode = _
      omega
    rw [unitLoop_succ_eq (by omega) hfetch, ← hrest, ← List.drop_drop,
      ← List.take_append_drop (unitSize s.mode) (bytes.drop s.pos.toNat), unitRows_unit_append hu, execAll, exec_unit,
      List.take_append_drop]

/-! ## The bytes a pass reads (20_memory.md rule R37) -/

theorem fetchUnit_unitMode {s : State} {u : UnitRead} (h : fetchUnit s = some u) : unitMode u = s.mode := by
  unfold fetchUnit at h
  split at h
  case h_1 hmode | h_2 hmode | h_4 hmode =>
    obtain ⟨_, _, rfl⟩ := Option.map_eq_some_iff.mp h
    exact hmode.symm
  case h_3 hmode =>
    split at h <;> cases h
    exact hmode.symm

/-- Everything a pass can do with a next state to show for it. -/
theorem unitLoop_succ_cases {n : Nat} {s t : State} (h : unitLoop (n + 1) s = .next t) :
    (s.pos.toNat = s.len.toNat ∧ t = s) ∨
    (s.pos.toNat ≠ s.len.toNat ∧ ∃ u, fetchUnit s = some u ∧ unitLoop n (afterUnit u s) = .next t) := by
  by_cases hend : s.pos.toNat = s.len.toNat
  · rw [unitLoop, if_pos hend] at h
    cases h
    exact .inl ⟨hend, rfl⟩
  · cases hu : fetchUnit s with
    | none =>
      rw [unitLoop, if_neg hend, hu] at h
      cases h
    | some u =>
      rw [unitLoop_succ_eq hend hu] at h
      exact .inr ⟨hend, u, rfl, h⟩

/-- In 2L, from a unit boundary, the loop sees the sample bytes alone (70_reset_and_hazards.md rule R122). -/
theorem unitLoop_congr {m m' : Memory} (hsame : ∀ a, a % 4 = 2 ∨ a % 4 = 3 → m.read a = m'.read a) {n : Nat}
    {s t : State} (hmode : s.mode = .twoLow) (hpos : s.pos.toNat % 4 = 0)
    (h : unitLoop n { s with cb := m } = .next t) : unitLoop n { s with cb := m' } = .next { t with cb := m' } := by
  induction n generalizing s with
  | zero =>
    cases h
    rfl
  | succ n ih =>
    obtain ⟨hend, rfl⟩ | ⟨hend, u, hu, hrest⟩ := unitLoop_succ_cases h
    · rw [unitLoop, if_pos hend]
    · have hu' : fetchUnit { s with cb := m' } = some u :=
        (fetchUnit_twoLow_congr (s := { s with cb := m }) (s' := { s with cb := m' }) hmode hmode rfl
          (hsame (s.pos.toNat + 2) (by omega)) (hsame (s.pos.toNat + 3) (by omega))).symm.trans hu
      have hunit : unitMode u = .twoLow := (fetchUnit_unitMode hu).trans hmode
      rw [unitLoop_succ_eq (s := { s with cb := m' }) hend hu']
      refine ih (s := afterUnit u s) hmode ?_ hrest
      rw [afterUnit, hunit, BitVec.toNat_add, BitVec.toNat_ofNat, unitSize]
      omega

/-! ## The statements -/

/-- Settles O44: the loop is its rows run in order, and its end is known. -/
theorem decodeLoopEndsAtLen : Obligations.DecodeLoopEndsAtLen := by
  unfold Obligations.DecodeLoopEndsAtLen
  intro s bytes hlt hcb hunits hlen hpos
  have hlen' : bytes.length = s.len.toNat := hlen ▸ eq_toNat_ofNat_of_lt hlt
  have hfit : s.pos.toNat + bytes.length / unitBytes s.mode * unitSize s.mode = bytes.length := by
    rw [hpos, ← unitBytes_eq_unitSize, Nat.div_mul_cancel (Nat.dvd_of_mod_eq_zero hunits)]
    exact Nat.zero_add _
  obtain ⟨recs, hloop, _⟩ := unitLoop_ofBytes hcb hlen' hfit
  have hrows := execAll_unitRows_eq_unitLoop hcb hlen' hfit
  rw [hpos] at hrows
  exact ⟨recs, hrows.trans hloop, hloop⟩

/-- Settles O59: the token check reads the offsets `4q`, a pass from a unit boundary the two sample bytes. -/
theorem tokenAndSamplePassesAreApart : Obligations.TokenAndSamplePassesAreApart := by
  unfold Obligations.TokenAndSamplePassesAreApart
  refine fun s m m' hmode => ⟨fun htokens len => ?_, fun hpos hsamples n t => unitLoop_congr hsamples hmode hpos⟩
  simp only [tokenMismatch, tokensMatch_congr htokens]

/-- Settles O10: the bytes at `pos` are what the fetch reads. -/
theorem decodeLoopRunsTheUnitAtPos : Obligations.DecodeLoopRunsTheUnitAtPos := by
  unfold Obligations.DecodeLoopRunsTheUnitAtPos
  intro s n bytes i hend hread hi
  rw [unitBytes_eq_unitSize] at hread
  obtain ⟨u, hu, rfl⟩ := exists_unit_of_decode hi
  exact ⟨_, exec_unit u s, unitLoop_succ_eq hend (fetchUnit_of_read hread hu)⟩

/-- Settles O45: the records of each row, with the value and the lane in the statement's layout. -/
theorem frameUnitsEmitTheirRecords : Obligations.FrameUnitsEmitTheirRecords := by
  unfold Obligations.FrameUnitsEmitTheirRecords
  intro s x t c a b v m
  refine ⟨(exec_unit (.byte1L x) s).trans ?byte1L, (exec_unit (.word1H v m) s).trans ?word1H,
    (exec_unit (.quad2L t c a b) s).trans ?quad2L, (exec_unit (.word2H v m) s).trans ?word2H⟩
  case byte1L => rw [← valOfByte_eq_append]; rfl
  case quad2L => rw [← valOfByte_eq_append, ← valOfByte_eq_append]; rfl
  case word1H => rw [afterUnit, readOf, unitRecords, valOfWord_wordOf, mkOfWord_wordOf]; rfl
  case word2H =>
    rw [afterUnit, readOf, unitRecords, valOfWord_wordOf, mkOfWord_wordOf, laneOfPos_eq_extract]; rfl

end Sys2Proof.Machine
end

section
/-!
SUPPORT. DECODE as a function of its arguments (42_decode.md rules R82 to R93): the number and the domain of its
records, the unread bytes, and the commands before and after it; then the eleven statements.
-/

namespace Sys2Proof.Machine

open Sys2Proof.Claims

/-! ## The number of records (42_decode.md rules R91 and R93) -/

theorem length_chunkWords : ∀ bytes : List Byte, (chunkWords bytes).length = bytes.length / 2
  | [] | [_] => by simp [chunkWords]
  | _ :: _ :: rest => by
    simp only [chunkWords, List.length_cons, length_chunkWords rest]
    omega

theorem length_laned (lane : BitVec 1) (ws : List (BitVec 16)) : (laned lane ws).length = ws.length := by
  induction ws generalizing lane with
  | nil => rfl
  | cons w ws ih => rw [laned, List.length_cons, ih, List.length_cons]

/-- One record for each whole word. -/
theorem length_chunkSamples_words {m : Mode} (hm : m = .oneHigh ∨ m = .twoHigh) (pos : BitVec 17)
    (bytes : List Byte) : (chunkSamples m pos bytes).length = bytes.length / 2 := by
  obtain rfl | rfl := hm
  · rw [chunkSamples, samples1H, List.length_map, length_chunkWords]
  · rw [chunkSamples, length_laned, length_chunkWords]

/-- DECODE in the 12-bit modes: the records and OK with their number, or, for an odd LEN, MalformedFrame. -/
theorem exec_decode_of_words {s : State} {bytes : List Byte} (hlt : bytes.length < 65536)
    (hcb : s.cb = Memory.ofBytes bytes) (hmode : s.mode = .oneHigh ∨ s.mode = .twoHigh) :
    exec (.decode (BitVec.ofNat 16 bytes.length)) s = .next (
      if bytes.length % 2 = 0 then
        afterDecode s (chunkSamples s.mode 0 bytes ++ [reply 0 (BitVec.ofNat 32 (bytes.length / 2))])
      else afterDecode { s with mfcnt := counted s.mfcnt } [reply 2 0]) := by
  have hunit : unitBytes s.mode = 2 := by obtain h | h := hmode <;> rw [h] <;> rfl
  have hlen := eq_toNat_ofNat_of_lt hlt
  split
  case isTrue heven =>
    have hok : ¬ malformed s bytes := not_malformed_of_tokensEqual (hunit.symm ▸ heven) fun hquads =>
      by obtain h | h := hmode <;> exact nomatch h.symm.trans hquads
    rw [exec_decode_of_not_malformed hcb hlen hok, chunkAnswer, length_chunkSamples_words hmode]
  case isFalse hodd => exact exec_decode_of_badLength hcb hlen (hunit.symm ▸ hodd)

/-! ## The domain of the records (42_decode.md section 5) -/

/-- A byte stands for itself: zero-extended, it is never negative (30_encoding.md rule R58). -/
theorem signedValue_byte (b : Byte) : signedValue ((0 : BitVec 8) ++ b) = b.toNat := by
  rw [signedValue, BitVec.toInt_append]
  simp

/-- A masked word is a multiple of 16, of the 12-bit sample read as two's complement. -/
theorem signedValue_masked (w : BitVec 16) : signedValue (w &&& 0xFFF0) = 16 * (sampleField w).toInt := by
  rw [← sampleField_append_markerField w, word_masked, signedValue, BitVec.toInt_append, sampleField_append]
  simp

theorem toInt_sampleField_range (w : BitVec 16) : -2048 ≤ (sampleField w).toInt ∧ (sampleField w).toInt ≤ 2047 := by
  have hlow := BitVec.le_toInt (sampleField w)
  have hhigh := BitVec.toInt_lt (x := sampleField w)
  omega

/-- The record of a byte, zero-extended and without a marker (42_decode.md rules R90 and R92). -/
def IsByteRecord (o : Output) : Prop := ∃ (lane : BitVec 1) (b : Byte), o = sr lane 0 ((0 : BitVec 8) ++ b)

/-- The record of a word with its low nibble cleared (42_decode.md rules R91 and R93). -/
def IsWordRecord (o : Output) : Prop :=
  ∃ (lane : BitVec 1) (mk : BitVec 4) (w : BitVec 16), o = sr lane mk (w &&& 0xFFF0)

theorem isByteRecord_of_mem_samples1L {bytes : List Byte} {o : Output} (h : o ∈ samples1L bytes) :
    IsByteRecord o := by
  obtain ⟨b, _, rfl⟩ := List.mem_map.mp h
  exact ⟨0, b, rfl⟩

theorem isByteRecord_of_mem_samples2L {o : Output} : ∀ {bytes : List Byte}, o ∈ samples2L bytes →
    IsByteRecord o
  | _ :: _ :: a :: b :: rest, h => by
    obtain rfl | rfl | hrest := by simpa only [samples2L, List.mem_cons] using h
    · exact ⟨0, a, rfl⟩
    · exact ⟨1, b, rfl⟩
    · exact isByteRecord_of_mem_samples2L hrest
  | [], h | [_], h | [_, _], h | [_, _, _], h => nomatch h

theorem isWordRecord_of_mem_laned {o : Output} {lane : BitVec 1} {ws : List (BitVec 16)} (h : o ∈ laned lane ws) :
    IsWordRecord o := by
  induction ws generalizing lane with
  | nil => exact nomatch h
  | cons w ws ih =>
    obtain rfl | hrest := List.mem_cons.mp h
    · exact ⟨_, _, w, rfl⟩
    · exact ih hrest

theorem isByteRecord_of_mem_chunkSamples {m : Mode} (hm : m = .oneLow ∨ m = .twoLow) {pos : BitVec 17}
    {bytes : List Byte} {o : Output} (h : o ∈ chunkSamples m pos bytes) : IsByteRecord o := by
  obtain rfl | rfl := hm
  · exact isByteRecord_of_mem_samples1L h
  · exact isByteRecord_of_mem_samples2L h

theorem isWordRecord_of_mem_chunkSamples {m : Mode} (hm : m = .oneHigh ∨ m = .twoHigh) {pos : BitVec 17}
    {bytes : List Byte} {o : Output} (h : o ∈ chunkSamples m pos bytes) : IsWordRecord o := by
  obtain rfl | rfl := hm
  · obtain ⟨w, _, rfl⟩ := List.mem_map.mp h
    exact ⟨0, _, w, rfl⟩
  · exact isWordRecord_of_mem_laned h

/-- The fields of a record read off its word. -/
theorem fields_of_sample_eq_sr {w : SampleWord} {lane : BitVec 1} {mk : BitVec 4} {val : BitVec 16}
    (h : Output.sample w = sr lane mk val) : w.extractLsb' 0 16 = val ∧ w.extractLsb' 16 4 = mk := by
  cases h
  exact ⟨extract_append_low (lane ++ mk) val, extract_append_middle lane mk val⟩

/-- A DECODE that answers had a chunk of LEN bytes. -/
theorem exists_bytes_of_exec_decode {len : BitVec 16} {s t : State} (h : exec (.decode len) s = .next t) :
    ∃ bytes : List Byte, bytes.length = len.toNat ∧ s.cb = Memory.ofBytes bytes :=
  Memory.eq_ofBytes_of_holdsExactly (execDecode_cases h).1

/-- The records among the words that a DECODE delivers are records of its chunk. -/
theorem sample_mem_chunkSamples {len : BitVec 16} {s t : State} {outs : List Output} {w : SampleWord}
    (h : exec (.decode len) s = .next t) (hdelivered : t.delivered = s.delivered ++ outs) (hw : .sample w ∈ outs) :
    ∃ bytes, .sample w ∈ chunkSamples s.mode 0 bytes := by
  obtain ⟨bytes, hlen, hcb⟩ := exists_bytes_of_exec_decode h
  refine ⟨bytes, ?_⟩
  by_cases hbad : malformed s bytes
  · cases (exec_decode_of_malformed hcb hlen hbad).symm.trans h
    rw [← List.append_cancel_left hdelivered] at hw
    exact nomatch List.mem_singleton.mp hw
  · cases (exec_decode_of_not_malformed hcb hlen hbad).symm.trans h
    rw [← List.append_cancel_left hdelivered] at hw
    exact (List.mem_append.mp hw).resolve_right fun hlast => nomatch List.mem_singleton.mp hlast

/-! ## The bytes that change nothing (20_memory.md rule R37) -/

/-- The records of a 2L chunk are those of its sample bytes. -/
theorem samples2L_congr {bytes bytes' : List Byte} (hlen : bytes.length = bytes'.length)
    (h : ∀ a, a % 4 = 2 ∨ a % 4 = 3 → bytes[a]? = bytes'[a]?) : samples2L bytes = samples2L bytes' := by
  induction bytes using samples2L.induct generalizing bytes' with
  | case1 t c a b rest ih =>
    match bytes', hlen with
    | t' :: c' :: a' :: b' :: rest', hlen =>
      have ha : a = a' := Option.some.inj (h 2 (by decide))
      have hb : b = b' := Option.some.inj (h 3 (by decide))
      have hrest : samples2L rest = samples2L rest' :=
        ih (by simpa using hlen) fun k hk => h (k + 4) (by omega)
      rw [samples2L, samples2L, ha, hb, hrest]
  | case2 bytes hshort =>
    have hnil : samples2L bytes = [] := by
      rw [samples2L]
      exact hshort
    rw [hnil, eq_comm, ← List.length_eq_zero_iff, length_samples2L, ← hlen, ← length_samples2L, hnil, List.length_nil]

theorem tokensEqual_congr {token : Byte} {bytes bytes' : List Byte} (hlen : bytes.length = bytes'.length)
    (h : ∀ q, bytes[4 * q]? = bytes'[4 * q]?) : tokensEqual token bytes ↔ tokensEqual token bytes' := by
  simp only [tokensEqual, hlen, h]

/-- A chunk is rejected for its length or for its token bytes. -/
theorem malformed_congr {s : State} {bytes bytes' : List Byte} (hlen : bytes.length = bytes'.length)
    (h : s.strict = true → ∀ q, bytes[4 * q]? = bytes'[4 * q]?) : malformed s bytes ↔ malformed s bytes' := by
  rw [malformed, malformed, hlen]
  exact or_congr_right (and_congr_right fun _ => and_congr_right fun hstrict =>
    not_congr (tokensEqual_congr hlen (h hstrict)))

theorem exec_decode_presented_of_malformed {s : State} {len : BitVec 16} {bytes : List Byte}
    (hlen : bytes.length = len.toNat) (hbad : malformed s bytes) :
    exec (.decode len) { s with cb := Memory.ofBytes bytes } =
      .next (afterDecode { s with mfcnt := counted s.mfcnt } [reply 2 (rejectCause s.mode bytes)]) :=
  exec_decode_of_malformed (s := { s with cb := Memory.ofBytes bytes }) rfl hlen hbad

theorem exec_decode_presented_of_not_malformed {s : State} {len : BitVec 16} {bytes : List Byte}
    (hlen : bytes.length = len.toNat) (hok : ¬ malformed s bytes) :
    exec (.decode len) { s with cb := Memory.ofBytes bytes } =
      .next (afterDecode s (chunkAnswer s.mode bytes)) :=
  exec_decode_of_not_malformed (s := { s with cb := Memory.ofBytes bytes }) rfl hlen hok

/-! ## A command does not read the ports (10_state.md rule R26) -/

/-- `s` with other moves pending and another history of deliveries. -/
def onPorts (moves : List HostMove) (before : List Output) (s : State) : State :=
  { s with pending := moves, delivered := before }

/-- What `i` delivers and where it ends are the same whatever is pending and whatever was delivered before. -/
def IgnoresPorts (i : Instr) (s : State) : Prop :=
  ∃ (outs : List Output) (w : State), ∀ moves before,
    exec i (onPorts moves before s) = .next (onPorts moves (before ++ outs) w)

theorem exec_wr_ignoresPorts (addr : BitVec 4) (data : BitVec 32) (s : State) : IgnoresPorts (.wr addr data) s := by
  obtain hreserved | hreadOnly | hconfig : 5 ≤ addr.toNat ∨ (addr = 3 ∨ addr = 4) ∨ addr.toNat < 3 := by bv_omega
  · exact ⟨[reply 4 1], s, fun _ _ => exec_wr_of_reserved hreserved data _⟩
  · exact ⟨[reply 4 2], s, fun _ _ => exec_wr_of_readOnly hreadOnly data _⟩
  · cases hlock : s.lock with
    | true => exact ⟨[reply 3 0], s, fun m b => exec_wr_of_locked (s := onPorts m b s) hconfig hlock data⟩
    | false =>
      refine ⟨[reply 0 0], ?_⟩
      obtain rfl | rfl | rfl := addr_eq_of_lt_three hconfig
      · exact ⟨writeCfg data s, fun m b => exec_wr_cfg_of_unlocked (s := onPorts m b s) hlock data⟩
      · exact ⟨writeToken data s, fun m b => exec_wr_token_of_unlocked (s := onPorts m b s) hlock data⟩
      · exact ⟨writeRate data s, fun m b => exec_wr_rate_of_unlocked (s := onPorts m b s) hlock data⟩

theorem readReg_onPorts (r : RegName) (moves : List HostMove) (before : List Output) (s : State) :
    readReg r (onPorts moves before s) = readReg r s := by cases r <;> rfl

theorem exec_rd_ignoresPorts (addr : BitVec 4) (s : State) : IgnoresPorts (.rd addr) s := by
  cases hreg : regOfNumber addr with
  | none =>
    exact ⟨[reply 4 1], s, fun _ _ => exec_rd_of_reserved ((regOfNumber_eq_none_iff addr).mp hreg) _⟩
  | some r => exact ⟨[reply 0 (readReg r s)], s, fun m b => exec_rd_eq_also hreg (readReg_onPorts r m b s)⟩

theorem exec_decode_ignoresPorts {s : State} {len : BitVec 16} {bytes : List Byte} (hcb : s.cb = Memory.ofBytes bytes)
    (hlen : bytes.length = len.toNat) : IgnoresPorts (.decode len) s := by
  obtain ⟨outs, count, _, hanswer⟩ := exec_decode_answer s hlen
  exact ⟨outs, afterDecode { s with mfcnt := count s.mfcnt } [], fun m b => hanswer (onPorts m b s) rfl rfl rfl hcb⟩

/-- No command reads the ports; a DECODE is asked only where its chunk is presented. -/
theorem exec_ignoresPorts {i : Instr} {s : State} (hunit : ∀ u : FrameUnit, i ≠ u.toInstr)
    (hduty : ∀ len, i = .decode len → ∃ bytes, s.cb = Memory.ofBytes bytes ∧ bytes.length = len.toNat) :
    IgnoresPorts i s := by
  cases i with
  | nop => exact ⟨[reply 0 0], s, fun _ _ => exec_nop _⟩
  | wr addr data => exact exec_wr_ignoresPorts addr data s
  | rd addr => exact exec_rd_ignoresPorts addr s
  | tick => exact ⟨[.response (tickWord s.rate s.mode)], s, fun m b => exec_tick_eq_also (onPorts m b s)⟩
  | decode len =>
    obtain ⟨bytes, hcb, hlen⟩ := hduty len rfl
    exact exec_decode_ignoresPorts hcb hlen
  | rst => exact ⟨[reply 0 0], resetRegisters s, fun _ _ => exec_rst _⟩
  | reserved67 op => exact ⟨[reply 4 0], s, fun _ _ => exec_reserved67 op _⟩
  | reserved8F op => exact ⟨[reply 4 0], s, fun _ _ => exec_reserved8F op _⟩
  | unit1L v => exact absurd rfl (hunit (.byte1L v))
  | unit1H v m => exact absurd rfl (hunit (.word1H v m))
  | unit2L t c a b => exact absurd rfl (hunit (.quad2L t c a b))
  | unit2H v m => exact absurd rfl (hunit (.word2H v m))

/-- The chunk presented with a DECODE is what the DECODE needs; any other command needs none. -/
theorem decodeCommand_ignoresPorts {cw : CommandWord} {chunk : List Byte} (s : State)
    (hduty : opField cw = 0x4 → chunk.length = (lenField cw).toNat) :
    IgnoresPorts (decodeCommand cw) (presented s cw chunk) := by
  refine exec_ignoresPorts (decodeCommand_ne_toInstr cw) fun len hlen => ⟨chunk, ?_⟩
  have hop : opField cw = 0x4 := (opField_eq_decode_iff_exists cw).mpr ⟨len, hlen⟩
  cases hlen.symm.trans ((decodeCommand_eq_decode_iff cw).mpr hop)
  exact ⟨if_pos hop, hduty hop⟩

/-! ## A WR and the next command (70_reset_and_hazards.md section 4) -/

theorem modeOfBits_eq_modeWithCode (b : BitVec 2) : modeOfBits b = modeWithCode b := by
  revert b
  decide

/-- A WR of a configuration register in the configuration phase, in the vocabulary of the statements. -/
theorem exec_wr_eq_configured {s : State} {addr : BitVec 4} (hlock : s.lock = false) (haddr : addr.toNat < 3)
    (data : BitVec 32) : exec (.wr addr data) s = .next (also (configured s addr data) [reply 0 0]) := by
  obtain rfl | rfl | rfl := addr_eq_of_lt_three haddr
  · rw [exec_wr_cfg_of_unlocked hlock, writeCfg, modeOfBits_eq_modeWithCode]
    rfl
  · exact exec_wr_token_of_unlocked hlock data
  · exact exec_wr_rate_of_unlocked hlock data

theorem configured_delivered (s : State) (addr : BitVec 4) (data : BitVec 32) :
    (configured s addr data).delivered = s.delivered := by
  rw [configured]
  split
  · rfl
  · split <;> rfl

/-- Writing a configuration register does not touch the moves still to come. -/
theorem configured_with_pending (s : State) (addr : BitVec 4) (data : BitVec 32) (moves : List HostMove) :
    configured { s with pending := moves } addr data = { configured s addr data with pending := moves } := by
  rw [configured, configured]
  split
  · rfl
  · split <;> rfl

/-- The step of a WR of a configuration register, with the next command at the head of the port after it. -/
theorem step_wr_configured {s : State} {addr : BitVec 4} {data : BitVec 32} {moves : List HostMove}
    (hlock : s.lock = false) (haddr : addr.toNat < 3)
    (hpending : s.pending = .command (commandWord 0x1 addr data) [] :: moves) :
    step s = .next { also (configured s addr data) [reply 0 0] with pending := moves } := by
  rw [step_command_of_op_ne_decode hpending (by rw [opField_commandWord]; decide), decodeCommand_commandWord_wr,
    exec_wr_eq_configured (s := { s with pending := moves }) hlock haddr, configured_with_pending]
  rfl

/-! ## The statements -/

/-- Settles O29: it is DECODE's equation for mode 1L. -/
theorem decode1LDeliversEveryByte : Obligations.Decode1LDeliversEveryByte := by
  unfold Obligations.Decode1LDeliversEveryByte
  exact fun s bytes hlt hcb hmode => exec_decode_of_oneLow hcb (eq_toNat_ofNat_of_lt hlt) hmode

/-- Settles O30: DECODE of words, in one lane. -/
theorem decode1HDeliversMaskedWords : Obligations.Decode1HDeliversMaskedWords := by
  unfold Obligations.Decode1HDeliversMaskedWords
  intro s bytes hlt hcb hmode
  rw [exec_decode_of_words hlt hcb (.inl hmode), hmode]
  rfl

/-- Settles O31: the answer to a chunk whose tokens are not looked at, and to a bad length. -/
theorem decode2LInterleavesChannels : Obligations.Decode2LInterleavesChannels := by
  unfold Obligations.Decode2LInterleavesChannels
  intro s bytes hlt hcb hmode
  refine ⟨fun hquads hstrict => ?_, fun hbad => ?_⟩
  · exact (strictTokenCheck s bytes hlt hcb hmode hquads).2 fun h => nomatch hstrict.symm.trans h
  · exact exec_decode_of_badLength hcb (eq_toNat_ofNat_of_lt hlt) (by rwa [hmode])

/-- Settles O32: DECODE of words, the lane of the first being that of offset 0. -/
theorem decode2HKeepsInterleaveOrder : Obligations.Decode2HKeepsInterleaveOrder := by
  unfold Obligations.Decode2HKeepsInterleaveOrder
  intro s bytes hlt hcb hmode
  rw [exec_decode_of_words hlt hcb (.inr hmode), hmode]
  rfl

/-- Settles O36: the buffer does not hold LEN bytes. -/
theorem wrongChunkLengthRefused : Obligations.WrongChunkLengthRefused := by
  unfold Obligations.WrongChunkLengthRefused
  intro s bytes len hcb hlen
  have hholds : ¬ s.cb.holdsExactly len.toNat = true := by
    rwa [hcb, Memory.holdsExactly_ofBytes, decide_eq_true_iff]
  exact if_neg hholds

/-- Settles O37: DECODE's answer, whatever it is, has this form. -/
theorem decodeAlwaysAnswersAndLocks : Obligations.DecodeAlwaysAnswersAndLocks := by
  unfold Obligations.DecodeAlwaysAnswersAndLocks
  intro s len bytes hcb hlen
  obtain ⟨outs, count, hcount, hanswer⟩ := exec_decode_answer s hlen
  exact ⟨count s.mfcnt, outs, hanswer s rfl rfl rfl hcb, hcount.imp (congrFun · s.mfcnt) (congrFun · s.mfcnt)⟩

/-- Settles O38: both states have the answer that CFG, TOKEN and the chunk determine. -/
theorem decodeReadsOnlyItsArguments : Obligations.DecodeReadsOnlyItsArguments := by
  unfold Obligations.DecodeReadsOnlyItsArguments
  intro s s' t len hmode hstrict htoken hcb h
  obtain ⟨bytes, hlen, hbytes⟩ := exists_bytes_of_exec_decode h
  obtain ⟨outs, count, hcount, hanswer⟩ := exec_decode_answer s hlen
  cases (hanswer s rfl rfl rfl hbytes).symm.trans h
  refine ⟨_, outs, hanswer s' hmode.symm hstrict.symm htoken.symm (hcb ▸ hbytes), rfl, rfl, ?_⟩
  obtain rfl | rfl := hcount
  · exact .inl ⟨rfl, rfl⟩
  · exact .inr ⟨rfl, rfl⟩

/-- Settles O39: the WR's step leaves the written state for the next command, and no command reads the ports. -/
theorem writeSeenByTheNextCommand : Obligations.WriteSeenByTheNextCommand := by
  unfold Obligations.WriteSeenByTheNextCommand
  intro s addr data cw chunk rest hlock haddr hpending
  have hnext : step { also (configured s addr data) [reply 0 0] with pending := .command cw chunk :: rest } =
      exec (decodeCommand cw)
        (presented { also (configured s addr data) [reply 0 0] with pending := rest } cw chunk) :=
    step_command rfl
  refine ⟨_, step_wr_configured hlock haddr hpending, hnext, fun hduty => ?_⟩
  obtain ⟨outs, w, hexec⟩ := decodeCommand_ignoresPorts (configured s addr data) hduty
  refine ⟨_, _, outs, hexec (configured s addr data).pending (configured s addr data).delivered, ?_,
    hnext.trans (hexec rest ((configured s addr data).delivered ++ [reply 0 0])), ?_⟩
  · exact congrArg (· ++ outs) (configured_delivered s addr data)
  · exact congrArg (· ++ [reply 0 0] ++ outs) (configured_delivered s addr data)

/-- Settles O40: the first DECODE leaves CFG and TOKEN as they were. -/
theorem sameChunkTwiceSameRecords : Obligations.SameChunkTwiceSameRecords := by
  unfold Obligations.SameChunkTwiceSameRecords
  intro s bytes rest hlt hpending
  obtain ⟨outs, count, _, hanswer⟩ := exec_decode_answer s (eq_toNat_ofNat_of_lt hlt)
  exact ⟨_, _, outs, (step_decodeMove hpending).trans (hanswer _ rfl rfl rfl rfl),
    (step_decodeMove rfl).trans (hanswer _ rfl rfl rfl rfl), rfl, rfl, rfl⟩

/-- Settles O42: every record carries a zero-extended byte or a masked word. -/
theorem decodedValuesStayInDomain : Obligations.DecodedValuesStayInDomain := by
  unfold Obligations.DecodedValuesStayInDomain
  intro s t len outs w h hdelivered hw
  obtain ⟨bytes, hmem⟩ := sample_mem_chunkSamples h hdelivered hw
  refine ⟨fun hmode => ?_, fun hmode => ?_⟩
  · obtain ⟨lane, b, hsr⟩ := isByteRecord_of_mem_chunkSamples hmode hmem
    obtain ⟨hval, hmk⟩ := fields_of_sample_eq_sr hsr
    have := b.isLt
    rw [hval, signedValue_byte]
    exact ⟨by omega, by omega, hmk⟩
  · obtain ⟨lane, mk, v, hsr⟩ := isWordRecord_of_mem_chunkSamples hmode hmem
    obtain ⟨hval, _⟩ := fields_of_sample_eq_sr hsr
    obtain ⟨hlow, hhigh⟩ := toInt_sampleField_range v
    exact ⟨_, hlow, hhigh, hval ▸ signedValue_masked v⟩

/-- Settles O58: the check that can fail depends on the length or on the token bytes, the records on the sample
bytes. -/
theorem unreadBytesChangeNothing : Obligations.UnreadBytesChangeNothing := by
  unfold Obligations.UnreadBytesChangeNothing
  intro s len bytes bytes' hmode hsame hread hlen
  have hlen' : bytes'.length = len.toNat := hsame ▸ hlen
  have hmalformed : malformed s bytes ↔ malformed s bytes' :=
    malformed_congr hsame fun hstrict q => hread (4 * q) (.inr (.inr ⟨Nat.mul_mod_right 4 q, hstrict⟩))
  by_cases hbad : malformed s bytes
  · have hcause : rejectCause s.mode bytes' = rejectCause s.mode bytes := by simp only [rejectCause, hsame]
    exact ⟨_, exec_decode_presented_of_malformed hlen hbad,
      hcause ▸ exec_decode_presented_of_malformed hlen' (hmalformed.mp hbad)⟩
  · have hanswer : chunkAnswer s.mode bytes' = chunkAnswer s.mode bytes := by
      simp only [chunkAnswer, chunkSamples, hmode,
        samples2L_congr hsame fun a ha => hread a (ha.imp_right .inl)]
    exact ⟨_, exec_decode_presented_of_not_malformed hlen hbad,
      hanswer ▸ exec_decode_presented_of_not_malformed hlen' (mt hmalformed.mpr hbad)⟩

end Sys2Proof.Machine
end
